-- ==== Sys2Proof/Word.lean ====
section
/-! DEFINITION. The widths of the block's words (rules R8, R32, R51): a byte, a 32-bit command or
read-port word, a 64-bit record slot. -/

namespace Sys2Proof

/-- A byte: 8 bits, bit 0 the least significant (rule R8). -/
abbrev Byte := BitVec 8

/-- A command word, or a word the read port returns: 32 bits (rules R26, R51). -/
abbrev Word := BitVec 32

/-- A result or record slot: 64 bits (rules R19, R22). -/
abbrev Slot := BitVec 64

/-- A read-port address: a 10-bit byte address (rule R26). -/
abbrev ReadAddr := BitVec 10

end Sys2Proof
end

