-- ==== Sys2Proof/Syntax.lean ====
section
/-! DEFINITION. The block's commands, one constructor per row of the opcode map (rule R55). -/

namespace Sys2Proof

/-- A command with its operands as rule R53 assembles them: `off` and `cnt` are the unsigned numbers
of their fields, a data byte is its 8 bits. No operand names a register. -/
inductive Instr where
  /-- NOP, class N (rule R70). -/
  | nop
  /-- CLEAR, class N (rule R71). -/
  | clear
  /-- PUSH b, class I (rule R72). -/
  | push (imm : Byte)
  /-- CRCINIT, class N (rule R82). -/
  | crcinit
  /-- CRCBYTE b, class I (rule R83). -/
  | crcbyte (imm : Byte)
  /-- CRCRANGE off, cnt, class OC (rule R84). -/
  | crcrange (off cnt : Nat)
  /-- CRCCHK off, class O (rule R85). -/
  | crcchk (off : Nat)
  /-- LDU8 off, class O (rule R96). -/
  | ldu8 (off : Nat)
  /-- LDS16 off, class O (rule R97). -/
  | lds16 (off : Nat)
  /-- LDU64 off, class O (rule R98). -/
  | ldu64 (off : Nat)
  /-- LDF32 off, class O (rule R99). -/
  | ldf32 (off : Nat)
  /-- DECODE, class N (rule R116). -/
  | decode
deriving DecidableEq, Repr

end Sys2Proof
end

