-- ==== Sys2Proof/WellFormed.lean ====
section
/-! DEFINITION. Which commands a command word can hold: every operand fits its 8-bit field (rules
R53, R61). The range check of rule R59 is not part of this: an offset that fails it is legal to
assemble and raises RANGE when executed (rule R61). -/

namespace Sys2Proof

/-- An offset or a count fits its 8-bit field: 255 at most (rule R61). -/
abbrev FitsField (n : Nat) : Prop := n ≤ 255

/-- Every operand of the command fits its field (rules R53, R61). A data byte is 8 bits by its type. -/
abbrev WellFormed (i : Instr) : Prop :=
  match i with
  | .nop => True
  | .clear => True
  | .push _ => True
  | .crcinit => True
  | .crcbyte _ => True
  | .crcrange off cnt => FitsField off ∧ FitsField cnt
  | .crcchk off => FitsField off
  | .ldu8 off => FitsField off
  | .lds16 off => FitsField off
  | .ldu64 off => FitsField off
  | .ldf32 off => FitsField off
  | .decode => True

/-- `WellFormed` as a check that runs. -/
def wellFormed (i : Instr) : Bool :=
  match i with
  | .crcrange off cnt => decide (FitsField off) && decide (FitsField cnt)
  | .crcchk off => decide (FitsField off)
  | .ldu8 off => decide (FitsField off)
  | .lds16 off => decide (FitsField off)
  | .ldu64 off => decide (FitsField off)
  | .ldf32 off => decide (FitsField off)
  | .nop => true
  | .clear => true
  | .push _ => true
  | .crcinit => true
  | .crcbyte _ => true
  | .decode => true

end Sys2Proof
end

