-- ==== Sys2Proof/Decode.lean ====
section
/-! DEFINITION. The decoder of rule R56 over the opcode map of rule R55, total on every 32-bit word,
and the encoder of rule R62. -/

namespace Sys2Proof

/-- OP, bits 7:0 (rule R52). -/
def opField (w : Word) : BitVec 8 := w.extractLsb' 0 8

/-- OFF, bits 15:8 (rule R52). -/
def offField (w : Word) : BitVec 8 := w.extractLsb' 8 8

/-- IMM, bits 23:16 (rule R52). -/
def immField (w : Word) : BitVec 8 := w.extractLsb' 16 8

/-- RSV, bits 31:24 (rule R52). -/
def rsvField (w : Word) : BitVec 8 := w.extractLsb' 24 8

/-- `off = uint(word[15:8])` (rule R53). -/
def offOperand (w : Word) : Nat := (offField w).toNat

/-- `cnt = uint(word[23:16])` (rule R53). -/
def cntOperand (w : Word) : Nat := (immField w).toNat

/-- One row of the opcode map: a word is this command exactly when `(word & mask) == pat` (the spec's
"match"), and `build` takes the operands of rule R53 from it. -/
structure OpRow where
  mnemonic : String
  pat : Word
  mask : Word
  build : Word → Instr

/-- The opcode map (rule R55), row for row. -/
def opcodeTable : List OpRow :=
  [⟨"NOP", 0x00000000#32, 0xFFFFFFFF#32, fun _ => .nop⟩,
   ⟨"CLEAR", 0x00000001#32, 0xFFFFFFFF#32, fun _ => .clear⟩,
   ⟨"PUSH", 0x00000002#32, 0xFF00FFFF#32, fun w => .push (immField w)⟩,
   ⟨"CRCINIT", 0x00000010#32, 0xFFFFFFFF#32, fun _ => .crcinit⟩,
   ⟨"CRCBYTE", 0x00000011#32, 0xFF00FFFF#32, fun w => .crcbyte (immField w)⟩,
   ⟨"CRCRANGE", 0x00000012#32, 0xFF0000FF#32, fun w => .crcrange (offOperand w) (cntOperand w)⟩,
   ⟨"CRCCHK", 0x00000013#32, 0xFFFF00FF#32, fun w => .crcchk (offOperand w)⟩,
   ⟨"LDU8", 0x00000020#32, 0xFFFF00FF#32, fun w => .ldu8 (offOperand w)⟩,
   ⟨"LDS16", 0x00000021#32, 0xFFFF00FF#32, fun w => .lds16 (offOperand w)⟩,
   ⟨"LDU64", 0x00000022#32, 0xFFFF00FF#32, fun w => .ldu64 (offOperand w)⟩,
   ⟨"LDF32", 0x00000023#32, 0xFFFF00FF#32, fun w => .ldf32 (offOperand w)⟩,
   ⟨"DECODE", 0x00000030#32, 0xFFFFFFFF#32, fun _ => .decode⟩]

/-- Does the word match the row (rule R55)? -/
def OpRow.matchesWord (r : OpRow) (w : Word) : Bool := w &&& r.mask == r.pat

/-- Why a word is illegal: the three kinds of rule R57. The block itself records only ILLEGAL
(rule R137). The names are the model's own, taken in the rule's order (DESIGN CHOICE, log entry 10). -/
inductive IllegalWord where
  /-- (a) an OP value not in the opcode map. -/
  | unassignedOp
  /-- (b) `RSV != 0`. -/
  | reservedNonzero
  /-- (c) an OFF or IMM field that the opcode's class requires to be 0 is not. -/
  | unusedFieldNonzero
deriving DecidableEq, Repr

/-- The OP values of the opcode map (rule R55). -/
def assignedOps : List (BitVec 8) := opcodeTable.map fun r => opField r.pat

/-- The kind of rule R57 a word that matches no row falls under. -/
def illegalWord (w : Word) : IllegalWord :=
  if opField w ∉ assignedOps then .unassignedOp
  else if rsvField w ≠ 0 then .reservedNonzero
  else .unusedFieldNonzero

/-- The decoder (rule R56): the first row the word matches, else ILLEGAL. -/
def decode (w : Word) : Except IllegalWord Instr :=
  match opcodeTable.find? (fun r => r.matchesWord w) with
  | some r => .ok (r.build w)
  | none => .error (illegalWord w)

/-- Class N (rule R62): `word = OP`. -/
def classN (op : BitVec 8) : Word := op.setWidth 32

/-- Class I (rule R62): `word = (imm << 16) | OP`. -/
def classI (op imm : BitVec 8) : Word := (imm.setWidth 32 <<< 16) ||| op.setWidth 32

/-- Class O (rule R62): `word = (off << 8) | OP`. -/
def classO (op : BitVec 8) (off : Nat) : Word := (BitVec.ofNat 32 off <<< 8) ||| op.setWidth 32

/-- Class OC (rule R62): `word = (cnt << 16) | (off << 8) | OP`. -/
def classOC (op : BitVec 8) (off cnt : Nat) : Word :=
  (BitVec.ofNat 32 cnt <<< 16) ||| (BitVec.ofNat 32 off <<< 8) ||| op.setWidth 32

/-- The word of a well-formed command (rules R55, R62). -/
def encode (i : Instr) : Word :=
  match i with
  | .nop => classN 0x00#8
  | .clear => classN 0x01#8
  | .push imm => classI 0x02#8 imm
  | .crcinit => classN 0x10#8
  | .crcbyte imm => classI 0x11#8 imm
  | .crcrange off cnt => classOC 0x12#8 off cnt
  | .crcchk off => classO 0x13#8 off
  | .ldu8 off => classO 0x20#8 off
  | .lds16 off => classO 0x21#8 off
  | .ldu64 off => classO 0x22#8 off
  | .ldf32 off => classO 0x23#8 off
  | .decode => classN 0x30#8

/-- The command word whose low `nbits` bits are `w` and whose other bits are 0. -/
def tableWord (nbits w : Nat) : Word := BitVec.ofNat 32 (w % 2 ^ nbits)

/-- The command the decoder reads from an opcode-table word. Every command is one 32-bit word and the
block sees no byte order inside it (rules R51, R60), so the table's numbering is the word's own. -/
def decodeTableWord (nbits w : Nat) : Option Instr :=
  if nbits ≤ 32 then
    match decode (tableWord nbits w) with
    | .ok i => some i
    | .error _ => none
  else none

end Sys2Proof
end

