-- ==== Sys2Proof/Config.lean ====
section
/-! DEFINITION. The parameters of rule R6 and the one free value the spec leaves to the model,
FBUF_INIT (rule R7, item U1). SCALE_ROUNDING, the other open parameter, lies outside the block: the
one definition that speaks of it takes it as an argument (Machine/Record.lean, DEDUCED, log entry 13). -/

namespace Sys2Proof.Config

/-- FRAME_BYTES (rule R6): "exactly 64 bytes". -/
abbrev frameBytes : Nat := 64

/-- HEADER_BYTES (rule R6): head, domain, command and length, offsets 0..4. -/
abbrev headerBytes : Nat := 5

/-- PAYLOAD_BYTES (rules R6, R118): the only accepted declared length (DEDUCED, log entry 12). -/
abbrev payloadBytes : Nat := 56

/-- CRC_COVER_BYTES (rule R6): the checksum covers offsets 0..60. -/
abbrev crcCoverBytes : Nat := 61

/-- CHECKSUM_OFFSET (rule R6). -/
abbrev checksumOffset : Nat := 61

/-- Offset of the frame's command byte (rule R115). -/
abbrev commandOffset : Nat := 3

/-- Offset of the frame's declared length (rule R115). -/
abbrev lengthOffset : Nat := 4

/-- DATA_REPORT_COMMAND (rule R6). -/
abbrev dataReportCommand : Nat := 1

/-- CRC_POLY (rule R6): x^8 + x^2 + x + 1, the high term implicit. -/
abbrev crcPoly : Byte := 0x07#8

/-- CRC_INIT (rule R6). -/
abbrev crcInit : Byte := 0x00#8

/-- FBUF_INIT (rule R7, item U1): the byte at an FBUF offset that nothing has written since power-up,
"a draw per byte at power-up, stable until written". It has no body, so nothing can be proved of its
value: every claim holds for every draw (DESIGN CHOICE, log entry 1). -/
opaque fbufInit : Nat → Byte

end Sys2Proof.Config
end

