-- ==== Sys2Proof/Machine/State.lean ====
section
/-! DEFINITION. Everything the spec gives the machine, as plain data: the frame buffer, the registers,
the record file, and the host's side of the two ports. -/

namespace Sys2Proof.Machine

/-- The frame buffer's contents: the bytes written since power-up, each with its offset, offsets
strictly rising. An offset that is not listed has not been written since power-up (DESIGN CHOICE, log entry 2). -/
abbrev Memory := List Host.Cell

/-- STATUS by its fields (rule R21). Bit 3 and bits 31:6 are reserved and hold nothing: they read 0. -/
structure Status where
  /-- VALID, bit 0: the most recent DECODE accepted the frame. -/
  valid : Bool
  /-- MATCH, bit 1: the most recent CRCCHK found CRC equal to the reference byte. -/
  mtch : Bool
  /-- ERR, bit 2, sticky: some command since the last CLEAR or reset was a command error. -/
  err : Bool
  /-- ERRCODE, bits 5:4: the code of the first such error. -/
  errcode : BitVec 2
deriving DecidableEq, Repr

/-- What the host does at the block, in the single total order of rule R45: it writes a command word,
reads a register, or the block is reset between two commands (rule R162). -/
inductive HostItem where
  /-- A write to the command port (rule R35(c)). -/
  | command (w : Word)
  /-- A read-port access (rule R26). -/
  | read (addr : ReadAddr)
  /-- The reset event, between two commands (rules R160, R162). -/
  | reset
  /-- An access by a second host to this instance: the spec defines nothing for it, and a model
  refuses it (rule R147, item U6). -/
  | secondHost
deriving DecidableEq, Repr

/-- The two command errors (rules R135, R136). -/
inductive CmdError where
  /-- ILLEGAL, ERRCODE 1: the word decodes to no command. -/
  | illegal
  /-- RANGE, ERRCODE 2: the command's bytes would pass FBUF[63]. -/
  | range
deriving DecidableEq, Repr

/-- The block, and the host's side of its ports. -/
structure State where
  /-- FBUF, 64 bytes (rule R15). Read it with `State.fbufByte`, which knows FBUF_INIT. -/
  fbuf : Memory
  /-- BUFLEN, the saturating count of pushes (rule R16). -/
  buflen : BitVec 16
  /-- CRC, the CRC-8 running register (rule R18). -/
  crc : Byte
  /-- RES, the extractor's result register (rule R19). -/
  res : Slot
  /-- FCLASS, the class register of the float32 deserializer (rule R20). -/
  fclass : BitVec 4
  /-- STATUS (rule R21). -/
  status : Status
  /-- REC, the record file (rule R22). -/
  record : Vector Slot 18
  /-- What the host has still to send, first item first: the rest of its command stream and its reads
  (rules R23, R45, R169; DESIGN CHOICE, log entry 3). -/
  pending : List HostItem
  /-- The index of the next command in the host's command stream (rule R23; DEDUCED, log entry 4). -/
  position : Nat
  /-- The words the read port has returned, oldest first: the observation of rule R169 (DEDUCED, log entry 5). -/
  observed : List Word
deriving DecidableEq, Repr

/-- Why the machine stops with a fault: never. "There are no other exceptions, faults, stuck states or
hangs" (rule R150), so the type has no constructor and no step can answer a fault. -/
inductive Fault where
deriving DecidableEq, Repr

/-- Why a step is refused. -/
inductive Refusal where
  /-- Raised by `exec` for a command that has no meaning in the model; no arm of `exec` is one. Safe. -/
  | notModelled (mnemonic : String)
  /-- Raised by `step` when a second host drives this instance: "Two hosts driving one instance are
  outside this spec" (rule R147), item U6 says `refuse`. Safe: nothing is claimed past it. -/
  | secondHost
deriving DecidableEq, Repr

/-- What one step answers. -/
abbrev Result := Host.Outcome State Fault Refusal

/-- STATUS with every field 0 (rules R21, R33). -/
abbrev Status.zero : Status := ⟨false, false, false, 0#2⟩

/-- REC with every slot 0 (rule R33). -/
abbrev zeroRecord : Vector Slot 18 := Vector.replicate 18 0#64

/-- The machine right after power-up: the reset values of rules R33 and R160, FBUF all FBUF_INIT
(nothing written), and a host that has sent nothing yet (log entries 1, 3, 4, 5). -/
def State.reset : State where
  fbuf := []
  buflen := 0#16
  crc := Config.crcInit
  res := 0#64
  fclass := 0#4
  status := Status.zero
  record := zeroRecord
  pending := []
  position := 0
  observed := []

end Sys2Proof.Machine
end

