-- ==== Sys2Proof/Machine/Flags.lean ====
section
/-! DEFINITION. STATUS: its word, and every way a command writes one of its fields (rules R21, R137). -/

namespace Sys2Proof.Machine

/-- STATUS as the read port shows it (rules R21, R26): VALID in bit 0, MATCH in 1, ERR in 2, ERRCODE in
5:4, every reserved bit 0. -/
def Status.word (f : Status) : Word :=
  0#26 ++ f.errcode ++ 0#1 ++ BitVec.ofBool f.err ++ BitVec.ofBool f.mtch ++ BitVec.ofBool f.valid

/-- The ERRCODE of a command error (rules R135, R136). -/
def CmdError.code (c : CmdError) : BitVec 2 :=
  match c with
  | .illegal => 1#2
  | .range => 2#2

/-- `STATUS.VALID <- v` (rule R116). -/
def Status.setValid (f : Status) (v : Bool) : Status := { f with valid := v }

/-- `STATUS.MATCH <- m` (rule R85). -/
def Status.setMatch (f : Status) (m : Bool) : Status := { f with mtch := m }

/-- The effect of a command error on STATUS (rule R137): ERRCODE takes the code if ERR was 0, and ERR
becomes 1. -/
def Status.raise (f : Status) (c : CmdError) : Status :=
  { f with errcode := if f.err then f.errcode else c.code, err := true }

end Sys2Proof.Machine
end

