-- ==== Sys2Proof/Machine/Ops.lean ====
section
/-! DEFINITION. The named operations every meaning is written over: the frame buffer's bytes, the
registers, the command error, the reset event, and the host's side of the ports. -/

namespace Sys2Proof.Machine

/-! ### The frame buffer as data -/

/-- The byte listed at an offset, if any. -/
def Memory.get? (m : Memory) (a : Nat) : Option Byte :=
  match m with
  | [] => none
  | c :: rest => if c.1 = a then some c.2 else Memory.get? rest a

/-- Write one byte, keeping the offsets strictly rising. -/
def Memory.write (m : Memory) (a : Nat) (b : Byte) : Memory :=
  match m with
  | [] => [(a, b)]
  | c :: rest =>
    if a < c.1 then (a, b) :: c :: rest
    else if a = c.1 then (a, b) :: rest
    else c :: Memory.write rest a b

/-- Are the offsets strictly rising, all of them at least `low`, and all in the 64-byte space? -/
def Memory.risingFrom (m : Memory) (low : Nat) : Bool :=
  match m with
  | [] => true
  | c :: rest =>
    decide (low ≤ c.1) && decide (c.1 < Config.frameBytes) && Memory.risingFrom rest (c.1 + 1)

/-- The canonical form: offsets strictly rising, none outside the 64-byte space (rule R36; DESIGN CHOICE,
log entry 2). -/
def Memory.wf (m : Memory) : Bool := m.risingFrom 0

/-- What an unlisted offset reads as: FBUF_INIT (rule R29, item U1; DESIGN CHOICE, log entry 1). -/
def unlistedByte (i : Nat) : Byte := Config.fbufInit i

/-! ### Registers -/

/-- Replace FBUF's contents. -/
def State.setFbuf (s : State) (m : Memory) : State := { s with fbuf := m }

/-- `BUFLEN <- n`. -/
def State.setBuflen (s : State) (n : BitVec 16) : State := { s with buflen := n }

/-- `CRC <- c`. -/
def State.setCrc (s : State) (c : Byte) : State := { s with crc := c }

/-- `RES <- v`. -/
def State.setRes (s : State) (v : Slot) : State := { s with res := v }

/-- `FCLASS <- k`. -/
def State.setFclass (s : State) (k : BitVec 4) : State := { s with fclass := k }

/-- `STATUS <- f`. -/
def State.setStatus (s : State) (f : Status) : State := { s with status := f }

/-- `REC[k] <- r[k]` for every k, in one step (rule R120). -/
def State.setRecord (s : State) (r : Vector Slot 18) : State := { s with record := r }

/-! ### Reading and writing FBUF -/

/-- `FBUF[i]` (rule R11): the byte last written there since power-up, else FBUF_INIT. -/
def State.fbufByte (s : State) (i : Nat) : Byte := (s.fbuf.get? i).getD (unlistedByte i)

/-- The bytes `FBUF[off] .. FBUF[off+n-1]`, in frame order (rule R38). -/
def State.fbufBytes (s : State) (off n : Nat) : List Byte :=
  match n with
  | 0 => []
  | n + 1 => s.fbufByte off :: s.fbufBytes (off + 1) n

/-- `MemRead(off, n) = {FBUF[off+n-1], ..., FBUF[off]}` (rules R11, R37): little-endian. -/
def State.memRead (s : State) (off : Nat) (n : Nat) : BitVec (8 * n) :=
  match n with
  | 0 => 0#0
  | n + 1 => State.memRead s (off + 1) n ++ s.fbufByte off

/-- The offset PUSH stores to: BUFLEN while it is below 64, else none (rule R72). -/
def State.pushAddress (s : State) : Option Nat :=
  if s.buflen.toNat < Config.frameBytes then some s.buflen.toNat else none

/-- `if uint(BUFLEN) < 64: FBUF[uint(BUFLEN)] <- b`, else the byte is discarded (rule R72). -/
def State.storePushed (s : State) (b : Byte) : State :=
  match s.pushAddress with
  | some a => s.setFbuf (s.fbuf.write a b)
  | none => s

/-- `if BUFLEN != 0xFFFF: BUFLEN <- BUFLEN + 1` (rule R72). -/
def State.countPushed (s : State) : State :=
  if s.buflen = 0xFFFF#16 then s else s.setBuflen (s.buflen + 1#16)

/-! ### Command errors, recovery, reset -/

/-- Taking a command error: `raise CmdError(c)` (rule R137). This is the block's one exception: no
state is saved and no handler exists (rule R140), only ERR and ERRCODE change, and the next command
runs as usual (rule R138). -/
def State.cmdError (s : State) (c : CmdError) : State := s.setStatus (s.status.raise c)

/-- The way back from a command error, the one CLEAR takes: `STATUS <- 0` (rules R71, R140). -/
def State.clearStatus (s : State) : State := s.setStatus Status.zero

/-- The registers CLEAR and the reset event both set: BUFLEN, CRC, RES, FCLASS and STATUS become 0
(rules R71, R160). -/
def State.clearRegisters (s : State) : State :=
  ((((s.setBuflen 0#16).setCrc Config.crcInit).setRes 0#64).setFclass 0#4).clearStatus

/-- The reset event (rule R160): every register and every REC slot becomes 0; FBUF keeps its bytes. -/
def State.resetEvent (s : State) : State := s.clearRegisters.setRecord zeroRecord

/-! ### The host's side of the ports -/

/-- Replace what the host has still to send. -/
def State.setPending (s : State) (p : List HostItem) : State := { s with pending := p }

/-- The block accepts the next command: the position in the command stream moves on by one (rule R23). -/
def State.accept (s : State) (rest : List HostItem) : State :=
  { s with pending := rest, position := s.position + 1 }

/-- The read port returns a word; nothing of the block changes (rules R27, R169). -/
def State.returnWord (s : State) (w : Word) (rest : List HostItem) : State :=
  { s with pending := rest, observed := s.observed ++ [w] }

end Sys2Proof.Machine
end

