-- ==== Sys2Proof/Machine/Operands.lean ====
section
/-! DEFINITION. The operand forms: an offset, or an offset and a count, with the range check of rule
R59, and the four field functions of rule R95. -/

namespace Sys2Proof.Machine

/-- Do `n` bytes at `off` lie in FBUF? `off + n <= 64` (rules R42, R59). -/
abbrev InRange (off n : Nat) : Prop := off + n ≤ Config.frameBytes

/-- A command that reads `n` bytes at `off`: in range it ends in `done`, otherwise it is a RANGE
command error with no other effect (rules R43, R59, R136). -/
def rangeChecked (off n : Nat) (s done : State) : Result :=
  if InRange off n then .next done else .next (s.cmdError .range)

/-- `zext_64(v)` (rule R10). -/
def zext64 {w : Nat} (v : BitVec w) : Slot := v.setWidth 64

/-- `sext_64(v)` (rule R10). -/
def sext64 {w : Nat} (v : BitVec w) : Slot := v.signExtend 64

/-- `fld_u8(off)` (rule R95). -/
def fldU8 (s : State) (off : Nat) : Slot := zext64 (s.fbufByte off)

/-- `fld_u64(off)` (rule R95). -/
def fldU64 (s : State) (off : Nat) : Slot := zext64 (s.memRead off 8)

/-- `fld_s16(off)` (rule R95). -/
def fldS16 (s : State) (off : Nat) : Slot := sext64 (s.memRead off 2)

/-- The pattern `MemRead(off, 4)` of a binary32 field (rule R99). -/
def f32Pattern (s : State) (off : Nat) : BitVec 32 := s.memRead off 4

/-- `fld_f32(off)` (rule R95): the bit pattern, kept as it is (rule R102). -/
def fldF32 (s : State) (off : Nat) : Slot := zext64 (f32Pattern s off)

end Sys2Proof.Machine
end

