-- ==== Sys2Proof/Machine/Buffer.lean ====
section
/-! DEFINITION. The buffer and control commands (rules R70 to R72). -/

namespace Sys2Proof.Machine

/-- NOP (rule R70): no state changes. -/
def execNop (s : State) : Result := .next s

/-- CLEAR (rule R71): BUFLEN, CRC, RES, FCLASS and STATUS become 0; FBUF and REC are unchanged. -/
def execClear (s : State) : Result := .next s.clearRegisters

/-- PUSH b (rule R72): store the byte while BUFLEN < 64, and count it, saturating at 0xFFFF. -/
def execPush (b : Byte) (s : State) : Result := .next (s.storePushed b).countPushed

end Sys2Proof.Machine
end

