-- ==== Sys2Proof/Machine/Crc8.lean ====
section
/-! DEFINITION. The CRC-8 of rules R80 and R81, and its four commands (rules R82 to R85). -/

namespace Sys2Proof.Machine

/-- One of the eight repetitions of rule R80: shift left, and XOR with 0x07 if bit 7 was 1 before the
shift. A shift of 8 bits keeps 8 bits, which is the rule's mask. -/
def crc8Shift (c : Byte) : Byte :=
  if c.getLsbD 7 then (c <<< 1) ^^^ Config.crcPoly else c <<< 1

/-- `n` repetitions of the shift. -/
def crc8Shifts (n : Nat) (c : Byte) : Byte :=
  match n with
  | 0 => c
  | n + 1 => crc8Shifts n (crc8Shift c)

/-- `crc8_update(c, b)` (rule R80). -/
def crc8Update (c b : Byte) : Byte := crc8Shifts 8 (c ^^^ b)

/-- Feed bytes to a running register, in order (rules R38, R81, R84). -/
def crc8From (c : Byte) (bs : List Byte) : Byte := bs.foldl crc8Update c

/-- `crc8(s)` (rule R81). -/
def crc8 (bs : List Byte) : Byte := crc8From Config.crcInit bs

/-- CRCINIT (rule R82): `CRC <- 0x00`. -/
def execCrcinit (s : State) : Result := .next (s.setCrc Config.crcInit)

/-- CRCBYTE b (rule R83): `CRC <- crc8_update(CRC, b)`. -/
def execCrcbyte (b : Byte) (s : State) : Result := .next (s.setCrc (crc8Update s.crc b))

/-- CRCRANGE off, cnt (rule R84): feed cnt frame-buffer bytes in one atomic step. -/
def execCrcrange (off cnt : Nat) (s : State) : Result :=
  rangeChecked off cnt s (s.setCrc (crc8From s.crc (s.fbufBytes off cnt)))

/-- CRCCHK off (rule R85): `STATUS.MATCH <- (CRC == FBUF[off]) ? 1 : 0`. -/
def execCrcchk (off : Nat) (s : State) : Result :=
  rangeChecked off 1 s (s.setStatus (s.status.setMatch (s.crc == s.fbufByte off)))

end Sys2Proof.Machine
end

