-- ==== Sys2Proof/Machine/Float32.lean ====
section
/-! DEFINITION. The IEEE 754 binary32 format of rules R100, R101 and R104: the fields of a pattern, its
class, and the value it denotes (PRESUMED, log entry 8). The block itself does no arithmetic on it (rule R103). -/

namespace Sys2Proof.Machine

/-- `s = w[31]` (rule R100). -/
def f32Sign (w : BitVec 32) : Bool := w.getLsbD 31

/-- `e = uint(w[30:23])` (rule R100). -/
def f32Exponent (w : BitVec 32) : Nat := (w.extractLsb' 23 8).toNat

/-- `f = uint(w[22:0])` (rule R100). -/
def f32Fraction (w : BitVec 32) : Nat := (w.extractLsb' 0 23).toNat

/-- The class number k of rule R104: 0 zero, 1 subnormal, 2 normal, 3 infinity, 4 NaN. -/
def f32Class (w : BitVec 32) : BitVec 3 :=
  if f32Exponent w = 0 then (if f32Fraction w = 0 then 0#3 else 1#3)
  else if f32Exponent w = 255 then (if f32Fraction w = 0 then 3#3 else 4#3)
  else 2#3

/-- `fclass(w) = {s, k}` (rule R104). -/
def fclassOf (w : BitVec 32) : BitVec 4 := BitVec.ofBool (f32Sign w) ++ f32Class w

/-- A value a pattern denotes (rule R101). `finite neg m e` is (-1)^neg * m * 2^e with m > 0. -/
inductive F32Value where
  | zero (neg : Bool)
  | finite (neg : Bool) (significand : Nat) (exponent : Int)
  | infinity (neg : Bool)
  | nan
deriving DecidableEq, Repr

/-- `f32val(w)` (rule R101). -/
def f32val (w : BitVec 32) : F32Value :=
  if f32Exponent w = 0 then
    (if f32Fraction w = 0 then .zero (f32Sign w) else .finite (f32Sign w) (f32Fraction w) (-149))
  else if f32Exponent w = 255 then
    (if f32Fraction w = 0 then .infinity (f32Sign w) else .nan)
  else .finite (f32Sign w) (2 ^ 23 + f32Fraction w) ((f32Exponent w : Int) - 150)

/-- `m * 2^e` as an exact rational. -/
def dyadic (m : Nat) (e : Int) : Rat :=
  if 0 ≤ e then mkRat ((m : Int) * 2 ^ e.toNat) 1 else mkRat (m : Int) (2 ^ (-e).toNat)

/-- The exact rational of a finite value: "Every finite value is an exact dyadic rational" (rule R101);
none for an infinity or a NaN. -/
def F32Value.rat? (v : F32Value) : Option Rat :=
  match v with
  | .zero _ => some 0
  | .finite neg m e => some (if neg then -(dyadic m e) else dyadic m e)
  | .infinity _ => none
  | .nan => none

end Sys2Proof.Machine
end

