-- ==== Sys2Proof/Machine/Extract.lean ====
section
/-! DEFINITION. The four loads of the field extractor (rules R96 to R99). -/

namespace Sys2Proof.Machine

/-- LDU8 off (rule R96): `RES <- fld_u8(off)`. -/
def execLdu8 (off : Nat) (s : State) : Result := rangeChecked off 1 s (s.setRes (fldU8 s off))

/-- LDS16 off (rule R97): `RES <- fld_s16(off)`. -/
def execLds16 (off : Nat) (s : State) : Result := rangeChecked off 2 s (s.setRes (fldS16 s off))

/-- LDU64 off (rule R98): `RES <- fld_u64(off)`. -/
def execLdu64 (off : Nat) (s : State) : Result := rangeChecked off 8 s (s.setRes (fldU64 s off))

/-- LDF32 off (rule R99): `RES <- zext_64(w)`, `FCLASS <- fclass(w)` for `w = MemRead(off, 4)`. -/
def execLdf32 (off : Nat) (s : State) : Result :=
  rangeChecked off 4 s ((s.setRes (fldF32 s off)).setFclass (fclassOf (f32Pattern s off)))

end Sys2Proof.Machine
end

