-- ==== Sys2Proof/Machine/Record.lean ====
section
/-! DEFINITION. DECODE: the frame checks of rules R117 to R119, the record layout of rule R121, the
meaning of rule R116, and the values the record's slots stand for (rule R123). -/

namespace Sys2Proof.Machine

/-! ### The checks -/

/-- The four rejection causes (rule R141). They are names for models and proofs: no state holds one. -/
inductive RejectCause where
  | wrongLength
  | unsupportedCommand
  | lengthMismatch
  | checksumMismatch
deriving DecidableEq, Repr

/-- The ghost number of a cause (rule R141). -/
def RejectCause.number (c : RejectCause) : Nat :=
  match c with
  | .wrongLength => 1
  | .unsupportedCommand => 2
  | .lengthMismatch => 3
  | .checksumMismatch => 4

/-- `crc8(FBUF[0] .. FBUF[60])`, from the initial value, not through the CRC register (rule R119). -/
def frameCrc (s : State) : Byte := crc8 (s.fbufBytes 0 Config.crcCoverBytes)

/-- The first check of rule R116 that rejects, in the source's step order (rules R126, R141). -/
def rejectCause (s : State) : Option RejectCause :=
  if s.buflen.toNat ≠ Config.frameBytes then some .wrongLength
  else if (s.fbufByte Config.commandOffset).toNat ≠ Config.dataReportCommand then
    some .unsupportedCommand
  else if (s.fbufByte Config.lengthOffset).toNat ≠ Config.payloadBytes then some .lengthMismatch
  else if frameCrc s ≠ s.fbufByte Config.checksumOffset then some .checksumMismatch
  else none

/-! ### The record -/

/-- The kinds of field a record has (rules R95, R121). -/
inductive FieldKind where
  | u8
  | u64
  | s16
  | f32
deriving DecidableEq, Repr

/-- One row of the record's layout: name, payload offset, kind, and d where the scale is 1/d. -/
structure FieldRow where
  name : String
  poff : Nat
  kind : FieldKind
  scaleDen : Nat
deriving DecidableEq, Repr

/-- The TelemetryRecord layout (rule R121), k = 0..17 in order. -/
def recordTable : List FieldRow :=
  [⟨"Count", 0, .u8, 1⟩,
   ⟨"Timestamp", 1, .u64, 1⟩,
   ⟨"AccX", 9, .f32, 1⟩,
   ⟨"AccY", 13, .f32, 1⟩,
   ⟨"AccZ", 17, .f32, 1⟩,
   ⟨"GyroX", 21, .f32, 1⟩,
   ⟨"GyroY", 25, .f32, 1⟩,
   ⟨"GyroZ", 29, .f32, 1⟩,
   ⟨"Pitch", 33, .f32, 1⟩,
   ⟨"Roll", 37, .f32, 1⟩,
   ⟨"Temperature", 41, .s16, 10⟩,
   ⟨"IMUStatus", 43, .u8, 1⟩,
   ⟨"GyroBiasX", 44, .s16, 10000⟩,
   ⟨"GyroBiasY", 46, .s16, 10000⟩,
   ⟨"GyroBiasZ", 48, .s16, 10000⟩,
   ⟨"GyroStaticBiasX", 50, .s16, 10000⟩,
   ⟨"GyroStaticBiasY", 52, .s16, 10000⟩,
   ⟨"GyroStaticBiasZ", 54, .s16, 10000⟩]

/-- `fld_kind(off)` (rule R95). -/
def fieldSlot (s : State) (kind : FieldKind) (off : Nat) : Slot :=
  match kind with
  | .u8 => fldU8 s off
  | .u64 => fldU64 s off
  | .s16 => fldS16 s off
  | .f32 => fldF32 s off

/-- The slot DECODE writes for a row: the field at frame offset `5 + poff` (rules R116, R121). -/
def rowSlot (s : State) (row : FieldRow) : Slot :=
  fieldSlot s row.kind (Config.headerBytes + row.poff)

/-- The record of the frame in FBUF (rule R120). -/
def recordOf (s : State) : Vector Slot 18 := ⟨(recordTable.map (rowSlot s)).toArray, rfl⟩

/-! ### The command -/

/-- Accepting (rule R120): all 18 slots and VALID = 1, in one step. -/
def acceptFrame (s : State) : State :=
  (s.setRecord (recordOf s)).setStatus (s.status.setValid true)

/-- Rejecting (rule R122): VALID = 0 and nothing else. -/
def rejectFrame (s : State) : State := s.setStatus (s.status.setValid false)

/-- DECODE (rule R116). -/
def execDecode (s : State) : Result :=
  match rejectCause s with
  | none => .next (acceptFrame s)
  | some _ => .next (rejectFrame s)

/-! ### What the slots stand for -/

/-- `raw(k) × scale(k)` (rule R123): an exact rational, or for an f32 field the value it denotes. -/
inductive FieldValue where
  | exact (q : Rat)
  | float (v : F32Value)
deriving DecidableEq, Repr

/-- The value of a slot read as a row of the layout (rules R95, R123). -/
def slotValue (row : FieldRow) (slot : Slot) : FieldValue :=
  match row.kind with
  | .u8 => .exact (mkRat (slot.toNat : Int) row.scaleDen)
  | .u64 => .exact (mkRat (slot.toNat : Int) row.scaleDen)
  | .s16 => .exact (mkRat slot.toInt row.scaleDen)
  | .f32 => .float (f32val (slot.setWidth 32))

/-- The value of record field k, for k = 0..17 (rule R123). -/
def recordValue (s : State) (k : Nat) : Option FieldValue :=
  match recordTable[k]?, s.record.toList[k]? with
  | some row, some slot => some (slotValue row slot)
  | _, _ => none

/-- The value of a scaled field in a consumer's format, for a consumer that rounds by `scaleRounding`:
the open parameter SCALE_ROUNDING (rules R7, R123, item U3; DEDUCED, log entry 13), not part of the block. -/
def consumerValue {Fmt : Type} (scaleRounding : Rat → Fmt) (s : State) (k : Nat) : Option Fmt :=
  match recordValue s k with
  | some (.exact q) => some (scaleRounding q)
  | _ => none

end Sys2Proof.Machine
end

