-- ==== Sys2Proof/Machine/Dispatch.lean ====
section
/-! DEFINITION. One arm per command: its meaning. -/

namespace Sys2Proof.Machine

/-- What a decoded command does (rules R13, R45): one atomic step. -/
def exec (i : Instr) (s : State) : Host.Outcome State Fault Refusal :=
  match i with
  | .nop => Sys2Proof.Machine.execNop s
  | .clear => Sys2Proof.Machine.execClear s
  | .push imm => Sys2Proof.Machine.execPush imm s
  | .crcinit => Sys2Proof.Machine.execCrcinit s
  | .crcbyte imm => Sys2Proof.Machine.execCrcbyte imm s
  | .crcrange off cnt => Sys2Proof.Machine.execCrcrange off cnt s
  | .crcchk off => Sys2Proof.Machine.execCrcchk off s
  | .ldu8 off => Sys2Proof.Machine.execLdu8 off s
  | .lds16 off => Sys2Proof.Machine.execLds16 off s
  | .ldu64 off => Sys2Proof.Machine.execLdu64 off s
  | .ldf32 off => Sys2Proof.Machine.execLdf32 off s
  | .decode => Sys2Proof.Machine.execDecode s

end Sys2Proof.Machine
end

