-- ==== Sys2Proof/Machine/ReadPort.lean ====
section
/-! DEFINITION. The read port: the register map of rule R26 as a function of the state. A read changes
nothing (rule R27). -/

namespace Sys2Proof.Machine

/-- `REC[k]` (rule R22), 0 for no slot. -/
def State.recSlot (s : State) (k : Nat) : Slot := s.record.toList.getD k 0#64

/-- Bits 31:0 of a slot (rules R19, R30). -/
def slotLo (v : Slot) : Word := v.extractLsb' 0 32

/-- Bits 63:32 of a slot (rules R19, R30). -/
def slotHi (v : Slot) : Word := v.extractLsb' 32 32

/-- FBUF_W(j) (rules R26, R29): four frame bytes, the one with the lowest offset in bits 7:0. -/
def fbufWord (s : State) (j : Nat) : Word :=
  s.fbufByte (4 * j + 3) ++ s.fbufByte (4 * j + 2) ++ s.fbufByte (4 * j + 1) ++ s.fbufByte (4 * j)

/-- The byte address with its bits 1:0 ignored: `a & 0x3FC` (rule R27). -/
def wordAddress (addr : ReadAddr) : Nat := (addr &&& 0x3FC#10).toNat

/-- The word at a word address (rule R26). -/
def readAt (s : State) (a : Nat) : Word :=
  if a = 0x000 then s.status.word
  else if a = 0x004 then s.buflen.setWidth 32
  else if a = 0x008 then s.crc.setWidth 32
  else if a = 0x00C then s.fclass.setWidth 32
  else if a = 0x010 then slotLo s.res
  else if a = 0x014 then slotHi s.res
  else if 0x100 ≤ a ∧ a < 0x190 then
    (if (a - 0x100) % 8 < 4 then slotLo (s.recSlot ((a - 0x100) / 8))
     else slotHi (s.recSlot ((a - 0x100) / 8)))
  else if 0x200 ≤ a ∧ a < 0x240 then fbufWord s ((a - 0x200) / 4)
  else 0#32

/-- What the read port returns for an address (rules R26, R27). -/
def readWord (s : State) (addr : ReadAddr) : Word := readAt s (wordAddress addr)

end Sys2Proof.Machine
end

