-- ==== Sys2Proof/Machine/Command.lean ====
section
/-! DEFINITION. What the block does with each thing the host sends it: a command word, a read, a reset. -/

namespace Sys2Proof.Machine

/-- A command word: decode it, then run the command, or raise ILLEGAL (rules R56, R135, R139). -/
def runCommand (w : Word) (s : State) : Result :=
  match decode w with
  | .ok i => exec i s
  | .error _ => .next (s.cmdError .illegal)

/-- Take one item of the host's stream (rules R45, R162); `rest` is what is left of it. -/
def takeItem (item : HostItem) (rest : List HostItem) (s : State) : Result :=
  match item with
  | .command w => runCommand w (s.accept rest)
  | .read addr => .next (s.returnWord (readWord s addr) rest)
  | .reset => .next (s.resetEvent.setPending rest)
  | .secondHost => .refused .secondHost

end Sys2Proof.Machine
end

