-- ==== Sys2Proof/Machine/Step.lean ====
section
/-! DEFINITION. The step: the block takes the next item of the host's stream. -/

namespace Sys2Proof.Machine

/-- One step. With nothing to take the block keeps its state: "All state holds its value for as long as
the block is powered and is not reset" (rule R149; DESIGN CHOICE, log entry 3). -/
def step (s : State) : Host.Outcome State Fault Refusal :=
  match s.pending with
  | [] => .next s
  | item :: rest => takeItem item rest s

/-- The state with the command word of an opcode-table row as the host's next item: commands are not
fetched from a memory (rule R49), the host writes them (DESIGN CHOICE, log entry 6). -/
def State.withFetchWord (s : State) (nbits w : Nat) : State :=
  { s with pending := .command (tableWord nbits w) :: s.pending }

end Sys2Proof.Machine
end

