-- ==== Sys2Proof/Machine/Assembler.lean ====
section
/-! DEFINITION. The assembler syntax of rule R61 and the pseudo-instructions of rule R63: from one source
line to its command words. The syntax has no semantics of its own (decision D22); lexical points the
rule leaves open are log entry 11 (DESIGN CHOICE). -/

namespace Sys2Proof.Machine

/-- The pseudo-instructions (rule R63). -/
inductive Pseudo where
  | loadframe (bytes : List Byte)
  | crc8 (off cnt : Nat)
  | verify
deriving DecidableEq, Repr

/-- The expansions (rule R63). -/
def Pseudo.expand (p : Pseudo) : List Instr :=
  match p with
  | .loadframe bytes => .clear :: bytes.map .push
  | .crc8 off cnt => [.crcinit, .crcrange off cnt]
  | .verify => [.crcinit, .crcrange 0 61, .crcchk 61]

/-- The words of a pseudo-instruction. -/
def Pseudo.words (p : Pseudo) : List Word := p.expand.map encode

/-! ### One line of source -/

/-- A blank between tokens. -/
def isBlank (c : Char) : Bool := c == ' ' || c == '\t'

/-- Without the blanks at both ends. -/
def trimBlanks (cs : List Char) : List Char :=
  ((cs.dropWhile isBlank).reverse.dropWhile isBlank).reverse

/-- The line without its comment: `;` begins one that runs to the end of the line. -/
def dropComment (cs : List Char) : List Char := cs.takeWhile (· != ';')

/-- The value of a digit in a base of at most 16. -/
def digitValue (base : Nat) (c : Char) : Option Nat :=
  let n := c.toNat
  let v := if 48 ≤ n ∧ n ≤ 57 then n - 48
    else if 97 ≤ n ∧ n ≤ 102 then n - 87
    else if 65 ≤ n ∧ n ≤ 70 then n - 55
    else 16
  if v < base then some v else none

/-- The number a digit string denotes, after the digits already read. -/
def digitsValue (base : Nat) (acc : Nat) (cs : List Char) : Option Nat :=
  match cs with
  | [] => some acc
  | c :: rest =>
    match digitValue base c with
    | some v => digitsValue base (acc * base + v) rest
    | none => none

/-- A number: decimal, or hexadecimal with a `0x` prefix. -/
def numberValue (cs : List Char) : Option Nat :=
  match cs with
  | [] => none
  | '0' :: 'x' :: [] => none
  | '0' :: 'x' :: rest => digitsValue 16 0 rest
  | _ => digitsValue 10 0 cs

/-- The pieces between commas. -/
def splitCommas (cs : List Char) : List (List Char) :=
  match cs with
  | [] => [[]]
  | c :: rest =>
    match splitCommas rest with
    | [] => [[c]]
    | piece :: more => if c == ',' then [] :: piece :: more else (c :: piece) :: more

/-- Each piece as an operand: "An assembler refuses an operand that does not fit its field (255 at
most)". -/
def operandValues (pieces : List (List Char)) : Option (List Nat) :=
  match pieces with
  | [] => some []
  | p :: rest =>
    match numberValue (trimBlanks p), operandValues rest with
    | some n, some ns => if n ≤ 255 then some (n :: ns) else none
    | _, _ => none

/-- The operands after a mnemonic. -/
def lineOperands (cs : List Char) : Option (List Nat) :=
  if trimBlanks cs = [] then some [] else operandValues (splitCommas cs)

/-- Class N: no operand. -/
def operandsN (i : Instr) (ops : List Nat) : Option (List Instr) :=
  match ops with
  | [] => some [i]
  | _ => none

/-- Class I: one data byte. -/
def operandsI (f : Byte → Instr) (ops : List Nat) : Option (List Instr) :=
  match ops with
  | [b] => some [f (BitVec.ofNat 8 b)]
  | _ => none

/-- Class O: one offset. -/
def operandsO (f : Nat → Instr) (ops : List Nat) : Option (List Instr) :=
  match ops with
  | [off] => some [f off]
  | _ => none

/-- Class OC: an offset and a count. -/
def operandsOC (f : Nat → Nat → Instr) (ops : List Nat) : Option (List Instr) :=
  match ops with
  | [off, cnt] => some [f off cnt]
  | _ => none

/-- LOADFRAME takes one byte or more (rule R63). -/
def operandsLoadframe (ops : List Nat) : Option (List Instr) :=
  match ops with
  | [] => none
  | _ => some (Pseudo.loadframe (ops.map (BitVec.ofNat 8))).expand

/-- CRC8 takes an offset and a count (rule R63). -/
def operandsCrc8 (ops : List Nat) : Option (List Instr) :=
  match ops with
  | [off, cnt] => some (Pseudo.crc8 off cnt).expand
  | _ => none

/-- VERIFY takes no operand (rule R63). -/
def operandsVerify (ops : List Nat) : Option (List Instr) :=
  match ops with
  | [] => some Pseudo.verify.expand
  | _ => none

/-- Every mnemonic with what it makes of its operands (rules R54, R61, R63). -/
def mnemonicTable : List (String × (List Nat → Option (List Instr))) :=
  [("NOP", operandsN .nop), ("CLEAR", operandsN .clear), ("PUSH", operandsI .push),
   ("CRCINIT", operandsN .crcinit), ("CRCBYTE", operandsI .crcbyte),
   ("CRCRANGE", operandsOC .crcrange), ("CRCCHK", operandsO .crcchk), ("LDU8", operandsO .ldu8),
   ("LDS16", operandsO .lds16), ("LDU64", operandsO .ldu64), ("LDF32", operandsO .ldf32),
   ("DECODE", operandsN .decode), ("LOADFRAME", operandsLoadframe),
   ("CRC8", operandsCrc8), ("VERIFY", operandsVerify)]

/-- The commands of one line: the empty list for an empty line, `none` for a line it refuses. -/
def lineCommands (cs : List Char) : Option (List Instr) :=
  let body := trimBlanks (dropComment cs)
  let name := body.takeWhile (fun c => !isBlank c)
  if body = [] then some []
  else
    match mnemonicTable.find? (fun row => row.1.toList == name), lineOperands (body.drop name.length) with
    | some row, some ops => row.2 ops
    | _, _ => none

/-- Assemble one line to its command words. -/
def assembleLine (line : String) : Option (List Word) :=
  match lineCommands line.toList with
  | some is => some (is.map encode)
  | none => none

end Sys2Proof.Machine
end

