-- ==== Sys2Proof/Safety.lean ====
section
/-! DEFINITION. The terms the claims are stated in: what an instruction leaves unchanged, the invariant
every step keeps, the ghost history of pushed bytes, and the source's own decode function, written a
second time over plain lists and numbers so that the block can be held against it. -/

namespace Sys2Proof.Machine

/-! ### Frames -/

/-- The columns of the read/write matrix (rule R31), with ERR and ERRCODE one column. -/
inductive Col where
  | fbuf
  | buflen
  | crc
  | res
  | fclass
  | valid
  | mtch
  | errs
  | record
deriving DecidableEq, Repr

/-- The two states hold the same in this column. FBUF is compared byte by byte, at every offset. -/
def Col.Same (c : Col) (s t : State) : Prop :=
  match c with
  | .fbuf => ∀ a, t.fbufByte a = s.fbufByte a
  | .buflen => t.buflen = s.buflen
  | .crc => t.crc = s.crc
  | .res => t.res = s.res
  | .fclass => t.fclass = s.fclass
  | .valid => t.status.valid = s.status.valid
  | .mtch => t.status.mtch = s.status.mtch
  | .errs => t.status.err = s.status.err ∧ t.status.errcode = s.status.errcode
  | .record => t.record = s.record

/-- The host's side of the two states is the same. -/
def SameHostSide (s t : State) : Prop :=
  t.pending = s.pending ∧ t.position = s.position ∧ t.observed = s.observed

/-- A frame: from `s` to `t` every column outside `cols` is unchanged, and so is the host's side. -/
def SameExcept (cols : List Col) (s t : State) : Prop :=
  (∀ c, c ∉ cols → c.Same s t) ∧ SameHostSide s t

/-- `t` is `s` with the block's own registers at their reset values and FBUF's bytes kept (rule R160). -/
def IsResetOf (s t : State) : Prop :=
  t.status.word = 0#32 ∧ t.buflen = 0#16 ∧ t.crc = 0x00#8 ∧ t.res = 0#64 ∧ t.fclass = 0#4 ∧
    (∀ k, t.recSlot k = 0#64) ∧ Col.fbuf.Same s t

/-- The effect of a command error with ERRCODE `code` (rule R137): ERR becomes 1, ERRCODE takes the code
when ERR was 0 and keeps its value otherwise, and nothing else changes. -/
def IsErrorOf (code : Nat) (s t : State) : Prop :=
  t.status.err = true ∧
    (s.status.err = false → t.status.errcode.toNat = code) ∧
    (s.status.err = true → t.status.errcode = s.status.errcode) ∧
    SameExcept [.errs] s t

/-- The word is an ILLEGAL command error (rule R135). -/
def IsIllegal (w : Word) : Prop := ∃ e, decode w = .error e

/-- The condition under which a command is legal to execute (rule R59's table). -/
def RangeLegal (i : Instr) : Prop :=
  match i with
  | .crcrange off cnt => off + cnt ≤ 64
  | .crcchk off => off ≤ 63
  | .ldu8 off => off ≤ 63
  | .lds16 off => off ≤ 62
  | .ldf32 off => off ≤ 60
  | .ldu64 off => off ≤ 56
  | .nop => True
  | .clear => True
  | .push _ => True
  | .crcinit => True
  | .crcbyte _ => True
  | .decode => True

/-- The columns a command writes when it is no command error (rule R31, the W entries). -/
def writtenCols (i : Instr) : List Col :=
  match i with
  | .nop => []
  | .clear => [.buflen, .crc, .res, .fclass, .valid, .mtch, .errs]
  | .push _ => [.fbuf, .buflen]
  | .crcinit => [.crc]
  | .crcbyte _ => [.crc]
  | .crcrange _ _ => [.crc]
  | .crcchk _ => [.mtch]
  | .ldu8 _ => [.res]
  | .lds16 _ => [.res]
  | .ldu64 _ => [.res]
  | .ldf32 _ => [.res, .fclass]
  | .decode => [.valid, .record]

/-- The columns a command reads (rule R31, the R entries). -/
def readCols (i : Instr) : List Col :=
  match i with
  | .nop => []
  | .clear => []
  | .push _ => [.buflen]
  | .crcinit => []
  | .crcbyte _ => [.crc]
  | .crcrange _ _ => [.fbuf, .crc]
  | .crcchk _ => [.fbuf, .crc]
  | .ldu8 _ => [.fbuf]
  | .lds16 _ => [.fbuf]
  | .ldu64 _ => [.fbuf]
  | .ldf32 _ => [.fbuf]
  | .decode => [.fbuf, .buflen]

/-! ### The invariant -/

/-- What every step keeps: FBUF's canonical form, every byte BUFLEN counts is one that was written
(rule R17), the class values 5, 6 and 7 and the error code 3 are never held (rules R20, R21), and
ERRCODE is 0 exactly while ERR is 0. -/
structure State.Inv (s : State) : Prop where
  fbuf_wf : s.fbuf.wf = true
  counted_written : ∀ i, i < min s.buflen.toNat 64 → (s.fbuf.get? i).isSome = true
  class_legal : s.fclass.toNat % 8 ≤ 4
  errcode_legal : s.status.errcode.toNat ≠ 3
  errcode_zero : s.status.err = false ↔ s.status.errcode.toNat = 0

/-! ### The bytes pushed since the last CLEAR or reset -/

/-- The ghost history after one more item of the host's stream (rules R16, R17): PUSH appends its byte,
CLEAR and reset start anew, everything else leaves it. -/
def pushHistory (h : List Byte) (item : HostItem) : List Byte :=
  match item with
  | .command w =>
    match decode w with
    | .ok (.push b) => h ++ [b]
    | .ok .clear => []
    | .ok _ => h
    | .error _ => h
  | .read _ => h
  | .reset => []
  | .secondHost => h

/-- BUFLEN and FBUF are what the history says (rules R16, R17, R73). -/
def AgreesWithHistory (h : List Byte) (s : State) : Prop :=
  s.buflen.toNat = min h.length 0xFFFF ∧ ∀ i (hi : i < h.length), i < 64 → s.fbufByte i = h[i]

/-- `s` with these command words as the host's next items and `rest` after them. -/
def State.hostWrites (s : State) (ws : List Word) (rest : List HostItem) : State :=
  s.setPending (ws.map .command ++ rest)

/-! ### The source's function, on plain lists and numbers -/

namespace Source

/-- One repetition of rule R80 on numbers: shift left, mask to 8 bits, and XOR with 0x07 if the high
bit was set before the shift. -/
def crcShift (c : Nat) : Nat :=
  if c.testBit 7 then ((c <<< 1) &&& 0xFF) ^^^ 0x07 else (c <<< 1) &&& 0xFF

/-- `crc8_update` of rule R80 on numbers. -/
def crcUpdate (c b : Nat) : Nat :=
  crcShift (crcShift (crcShift (crcShift (crcShift (crcShift (crcShift (crcShift (c ^^^ b))))))))

/-- `crc8` of rule R81 on numbers. -/
def crc (bs : List Byte) : Nat := bs.foldl (fun c b => crcUpdate c b.toNat) 0

/-- The unsigned value of bytes, the first the least significant (rule R37). -/
def leNat (bs : List Byte) : Nat :=
  match bs with
  | [] => 0
  | b :: rest => b.toNat + 256 * leNat rest

/-- An unsigned field of `n` bytes at `off`. -/
def unsignedAt (buf : List Byte) (off n : Nat) : Nat := leNat ((buf.drop off).take n)

/-- A two's-complement 16-bit field at `off` (rule R10). -/
def signed16At (buf : List Byte) (off : Nat) : Int :=
  if unsignedAt buf off 2 < 0x8000 then (unsignedAt buf off 2 : Int)
  else (unsignedAt buf off 2 : Int) - 0x10000

/-- An unsigned field, or a bit pattern, as a slot value (rule R95). -/
def unsignedSlot (buf : List Byte) (off n : Nat) : Slot := BitVec.ofNat 64 (unsignedAt buf off n)

/-- A signed field as a slot value (rule R95). -/
def signedSlot (buf : List Byte) (off : Nat) : Slot := BitVec.ofInt 64 (signed16At buf off)

/-- The 18 fields at the frame offsets of rule R121, k = 0..17. -/
def record (buf : List Byte) : List Slot :=
  [unsignedSlot buf 5 1, unsignedSlot buf 6 8,
   unsignedSlot buf 14 4, unsignedSlot buf 18 4, unsignedSlot buf 22 4,
   unsignedSlot buf 26 4, unsignedSlot buf 30 4, unsignedSlot buf 34 4,
   unsignedSlot buf 38 4, unsignedSlot buf 42 4,
   signedSlot buf 46, unsignedSlot buf 48 1,
   signedSlot buf 49, signedSlot buf 51, signedSlot buf 53,
   signedSlot buf 55, signedSlot buf 57, signedSlot buf 59]

/-- The source's `decode(buffer)` (rule R116, steps 1 to 9): the record, or failure. -/
def decode (buf : List Byte) : Option (List Slot) :=
  if buf.length = 64 ∧ unsignedAt buf 3 1 = 1 ∧ unsignedAt buf 4 1 = 56 ∧
      crc (buf.take 61) = unsignedAt buf 61 1 then
    some (record buf)
  else none

end Source

/-- FBUF's 64 bytes as the source's buffer. -/
def State.frame (s : State) : List Byte := s.fbufBytes 0 64

end Sys2Proof.Machine
end

