-- ==== Sys2Proof/Certificates/Slice0/Obligations.lean ====
section
/-! DEFINITION. The statements for the provers. Each docstring names the rules it formalises. The helper
definitions first are the spec's own tables and vectors, written out. -/

namespace Sys2Proof.Claims

open Sys2Proof Sys2Proof.Machine

/-- "ILLEGAL if OFF, IMM or RSV is nonzero": class N (rule R54). -/
def ClassNIllegal (op : BitVec 8) : Prop :=
  ∀ w, opField w = op → (IsIllegal w ↔ offField w ≠ 0 ∨ immField w ≠ 0 ∨ rsvField w ≠ 0)

/-- "ILLEGAL if OFF or RSV is nonzero": class I (rule R54). -/
def ClassIIllegal (op : BitVec 8) : Prop :=
  ∀ w, opField w = op → (IsIllegal w ↔ offField w ≠ 0 ∨ rsvField w ≠ 0)

/-- "ILLEGAL if IMM or RSV is nonzero": class O (rule R54). -/
def ClassOIllegal (op : BitVec 8) : Prop :=
  ∀ w, opField w = op → (IsIllegal w ↔ immField w ≠ 0 ∨ rsvField w ≠ 0)

/-- "ILLEGAL if RSV is nonzero": class OC (rule R54). -/
def ClassOCIllegal (op : BitVec 8) : Prop :=
  ∀ w, opField w = op → (IsIllegal w ↔ rsvField w ≠ 0)

/-- Match and mask (rule R55): a word is the command exactly when `(word & mask) == match`. -/
def MatchedBy (pat mask : Word) (isCommand : Instr → Prop) : Prop :=
  ∀ w, w &&& mask = pat ↔ ∃ i, decode w = .ok i ∧ isCommand i

/-- The command answers a next state in which it has been a RANGE command error and nothing else. -/
def RaisesRange (i : Instr) (s : State) : Prop := ∃ t, exec i s = .next t ∧ IsErrorOf 2 s t

/-- Frame V-F1 of 95_test_vectors.md. -/
def frameF1 : List Byte :=
  [0xA5, 0x5A, 0x00, 0x01, 0x38, 0x2A, 0x7B, 0x68, 0xE5, 0xCF, 0x8B, 0x01, 0x00, 0x00, 0x00, 0x00] ++
  [0x80, 0x3F, 0x00, 0x00, 0x20, 0xC0, 0x00, 0x00, 0x1C, 0x41, 0x00, 0x00, 0x00, 0x3F, 0x00, 0x00] ++
  [0x80, 0xBE, 0x00, 0x00, 0x00, 0x00, 0x00, 0x00, 0x28, 0x41, 0x00, 0x00, 0x34, 0xC2, 0xFD, 0x00] ++
  [0x01, 0xF4, 0xFF, 0x00, 0x00, 0xFF, 0x7F, 0x00, 0x80, 0x01, 0x00, 0xFF, 0xFF, 0x27, 0x0D, 0x0A]

/-- The record V-D1 of 95_test_vectors.md. -/
def recordD1 : List Slot :=
  [0x000000000000002A, 0x0000018BCFE5687B, 0x000000003F800000, 0x00000000C0200000,
   0x00000000411C0000, 0x000000003F000000, 0x00000000BE800000, 0x0000000000000000,
   0x0000000041280000, 0x00000000C2340000, 0x00000000000000FD, 0x0000000000000001,
   0xFFFFFFFFFFFFFFF4, 0x0000000000000000, 0x0000000000007FFF, 0xFFFFFFFFFFFF8000,
   0x0000000000000001, 0xFFFFFFFFFFFFFFFF]

/-- The little-endian sum of rule R37 over `n` frame bytes. -/
def leSum (s : State) (off n : Nat) : Nat :=
  ((List.range n).map fun i => (s.fbufByte (off + i)).toNat * 256 ^ i).sum

/-- `sint_16` of rule R10 on an unsigned value. -/
def sint16 (u : Nat) : Int := if u < 0x8000 then (u : Int) else (u : Int) - 0x10000

/-- The running register after `cnt` bytes at `off`, by rule R80 on numbers. -/
def crcOver (c : Nat) (s : State) (off cnt : Nat) : Nat :=
  ((List.range cnt).map fun i => (s.fbufByte (off + i)).toNat).foldl Source.crcUpdate c

/-- Exponent and fraction of a binary32 pattern as numbers (rule R100). -/
def exponentOf (w : Nat) : Nat := w / 2 ^ 23 % 256

/-- The fraction (rule R100). -/
def fractionOf (w : Nat) : Nat := w % 2 ^ 23

/-- Rule R104's table, on the pattern as a number: the 4-bit class of a pattern. -/
def HasClass (w k : Nat) : Prop :=
  k / 8 = w / 2 ^ 31 ∧
    (k % 8 = 0 ↔ exponentOf w = 0 ∧ fractionOf w = 0) ∧
    (k % 8 = 1 ↔ exponentOf w = 0 ∧ fractionOf w ≠ 0) ∧
    (k % 8 = 2 ↔ 1 ≤ exponentOf w ∧ exponentOf w ≤ 254) ∧
    (k % 8 = 3 ↔ exponentOf w = 255 ∧ fractionOf w = 0) ∧
    (k % 8 = 4 ↔ exponentOf w = 255 ∧ fractionOf w ≠ 0) ∧
    k % 8 ≤ 4

/-- The four conditions of the taxonomy (rule R141), by number. -/
def RejectCondition (s : State) (n : Nat) : Prop :=
  (n = 1 ∧ s.buflen.toNat ≠ 64) ∨
    (n = 2 ∧ (s.fbufByte 3).toNat ≠ 1) ∨
    (n = 3 ∧ (s.fbufByte 4).toNat ≠ 56) ∨
    (n = 4 ∧ Source.crc (s.fbufBytes 0 61) ≠ (s.fbufByte 61).toNat)

/-- DECODE answers a state that differs from `s` in VALID = 0 at most (rule R122). -/
def DecodeRejects (s : State) : Prop :=
  ∃ t, exec .decode s = .next t ∧ t.status.valid = false ∧ SameExcept [.valid] s t

/-- DECODE answers a state with VALID = 1 and this record, and nothing else changed (rule R120). -/
def DecodeAccepts (s : State) (r : List Slot) : Prop :=
  ∃ t, exec .decode s = .next t ∧ t.status.valid = true ∧ t.record.toList = r ∧
    SameExcept [.valid, .record] s t

/-- Two pairs of states agree on what a command did to a column: both after-states hold the same there,
or both kept what they had. FBUF is taken byte by byte. -/
def SameOrKept (c : Col) (s₁ s₂ t₁ t₂ : State) : Prop :=
  match c with
  | .fbuf => ∀ a, t₂.fbufByte a = t₁.fbufByte a ∨
      (t₁.fbufByte a = s₁.fbufByte a ∧ t₂.fbufByte a = s₂.fbufByte a)
  | c => c.Same t₁ t₂ ∨ (c.Same s₁ t₁ ∧ c.Same s₂ t₂)

/-- `s` with other error bits. -/
def withErrs (s : State) (e : Bool) (c : BitVec 2) : State :=
  s.setStatus { s.status with err := e, errcode := c }

/-- The addresses of the register map (rule R26), as word addresses. -/
def Mapped (a : Nat) : Prop :=
  a ∈ [0x000, 0x004, 0x008, 0x00C, 0x010, 0x014] ∨
    (∃ k, k < 18 ∧ (a = 0x100 + 8 * k ∨ a = 0x104 + 8 * k)) ∨ (∃ j, j < 16 ∧ a = 0x200 + 4 * j)

/-- What the register map returns at a word address (rule R26), by numbers. -/
def MapReturns (s : State) (a : Nat) (v : Nat) : Prop :=
  (a = 0x000 → v = (s.status.valid.toNat + 2 * s.status.mtch.toNat + 4 * s.status.err.toNat +
      16 * s.status.errcode.toNat)) ∧
    (a = 0x004 → v = s.buflen.toNat) ∧
    (a = 0x008 → v = s.crc.toNat) ∧
    (a = 0x00C → v = s.fclass.toNat) ∧
    (a = 0x010 → v = s.res.toNat % 2 ^ 32) ∧
    (a = 0x014 → v = s.res.toNat / 2 ^ 32) ∧
    (∀ k, k < 18 → a = 0x100 + 8 * k → v = (s.recSlot k).toNat % 2 ^ 32) ∧
    (∀ k, k < 18 → a = 0x104 + 8 * k → v = (s.recSlot k).toNat / 2 ^ 32) ∧
    (∀ j, j < 16 → a = 0x200 + 4 * j → v = leSum s (4 * j) 4) ∧
    (¬ Mapped a → v = 0)

/-- The block's own state is the same: every column, with FBUF as data too. -/
def SameBlock (s t : State) : Prop := (∀ c : Col, c.Same s t) ∧ t.fbuf = s.fbuf

end Sys2Proof.Claims

open Sys2Proof Sys2Proof.Machine Sys2Proof.Claims

/-! ### Encoding -/

/-- Rules R55, R56, R62: decoding the word of a well-formed command gives the command back, with every
operand at every value its field admits, and the word is the one rule R62 builds. -/
def Obligations.DecodeOfEncodeIsTheCommand : Prop :=
  ∀ i, WellFormed i → decode (encode i) = .ok i

/-- Rule R55: a word that is a command is that command's one word, and its operands fit their fields. -/
def Obligations.EveryCommandWordIsItsEncoding : Prop :=
  ∀ w i, decode w = .ok i → WellFormed i ∧ encode i = w

/-- Rule R62 (which the spec derives from R52): the word of each class is built by its formula, here on
numbers. -/
def Obligations.WordsAreBuiltByClass : Prop :=
  (∀ i op, (i, op) ∈ [(Instr.nop, 0x00), (.clear, 0x01), (.crcinit, 0x10), (.decode, 0x30)] →
      (encode i).toNat = op) ∧
    (∀ imm : Byte, (encode (.push imm)).toNat = imm.toNat * 2 ^ 16 + 0x02 ∧
      (encode (.crcbyte imm)).toNat = imm.toNat * 2 ^ 16 + 0x11) ∧
    (∀ off, off ≤ 255 → (encode (.crcchk off)).toNat = off * 2 ^ 8 + 0x13 ∧
      (encode (.ldu8 off)).toNat = off * 2 ^ 8 + 0x20 ∧
      (encode (.lds16 off)).toNat = off * 2 ^ 8 + 0x21 ∧
      (encode (.ldu64 off)).toNat = off * 2 ^ 8 + 0x22 ∧
      (encode (.ldf32 off)).toNat = off * 2 ^ 8 + 0x23) ∧
    (∀ off cnt, off ≤ 255 → cnt ≤ 255 →
      (encode (.crcrange off cnt)).toNat = cnt * 2 ^ 16 + off * 2 ^ 8 + 0x12)

/-- Rule R57: the illegal words are exactly those of its three kinds, and an illegal word has no effect
besides the command error. That the word leaves the host's stream and moves the position on by one is the
model's (log entries 3 and 4). -/
def Obligations.IllegalWordsAreExactlyTheThreeKinds : Prop :=
  (∀ w, IsIllegal w ↔
    ((0x03 ≤ (opField w).toNat ∧ (opField w).toNat ≤ 0x0F) ∨
      (0x14 ≤ (opField w).toNat ∧ (opField w).toNat ≤ 0x1F) ∨
      (0x24 ≤ (opField w).toNat ∧ (opField w).toNat ≤ 0x2F) ∨ 0x31 ≤ (opField w).toNat) ∨
    rsvField w ≠ 0 ∨
    (opField w ∈ [0x00#8, 0x01#8, 0x10#8, 0x30#8] ∧ (offField w ≠ 0 ∨ immField w ≠ 0)) ∨
    (opField w ∈ [0x02#8, 0x11#8] ∧ offField w ≠ 0) ∨
    (opField w ∈ [0x13#8, 0x20#8, 0x21#8, 0x22#8, 0x23#8] ∧ immField w ≠ 0)) ∧
  (∀ s w rest, s.pending = .command w :: rest → IsIllegal w →
    ∃ t, step s = .next t ∧ IsErrorOf 1 (s.accept rest) t)

/-- Rules R52, R55: words written out from the encoding decode to their commands. -/
def Obligations.SampleWordsDecode : Prop :=
  decode 0x00000000#32 = .ok .nop ∧ decode 0x00000001#32 = .ok .clear ∧
    decode 0x00A50002#32 = .ok (.push 0xA5#8) ∧ decode 0x003D0012#32 = .ok (.crcrange 0 61) ∧
    decode 0x00003D13#32 = .ok (.crcchk 61) ∧ decode 0x00000E23#32 = .ok (.ldf32 14) ∧
    decode 0x00000030#32 = .ok .decode

/-- Rule R61: the assembler's examples, and the operand it refuses. Blanks and the comment are read as
log entry 11 says. -/
def Obligations.AssemblerExamples : Prop :=
  assembleLine "PUSH 0xA5" = some [0x00A50002#32] ∧
    assembleLine "CRCRANGE 0, 61" = some [0x003D0012#32] ∧
    assembleLine "CRCCHK 61 ; checksum" = some [0x00003D13#32] ∧
    assembleLine "LDF32 14" = some [0x00000E23#32] ∧
    assembleLine "DECODE" = some [0x00000030#32] ∧
    assembleLine "LDU8 256" = none ∧ assembleLine "LDU64 64" = some [0x00004022#32]

/-! ### The step and the host's side -/

/-- Rules R23, R45, R56: when the host's next item is a command word that decodes, a step is the
command's meaning at the state that has accepted it: that item gone, the position one further. The stream
and the position in State are the model's (log entries 3 and 4). -/
def Obligations.StepRunsTheDecodedCommand : Prop :=
  ∀ (s : State) w i rest, s.pending = .command w :: rest → decode w = .ok i →
    step s = exec i { s with pending := rest, position := s.position + 1 }

/-- Rules R23, R45, through the model's fetch: `withFetchWord` makes the word's command the very next.
`withFetchWord` is the model's (log entry 6), and so is the position one further (log entry 4). -/
def Obligations.FetchedWordRunsNext : Prop :=
  ∀ (s : State) n i, decodeTableWord 32 n = some i →
    step (s.withFetchWord 32 n) = exec i { s with position := s.position + 1 }

/-- Rules R150, R168: every step answers a next state, except that a second host's access is refused; no
step answers a fault. Rule R147 puts a second host outside the spec and item U6 says `refuse`; that its
access is an item the step refuses is the model's (log entry 14), that no command hangs is log entry 15,
and that a step with nothing to take answers the same state is log entry 3. -/
def Obligations.EveryStepCompletes : Prop :=
  ∀ s : State, (∃ t, step s = .next t) ∨
    (∃ rest, s.pending = .secondHost :: rest ∧ step s = .refused .secondHost)

/-- Rule R149: a reset is the only event that changes state without a command. Reading a register, or
having nothing to take, leaves the block as it is (the last is log entry 3). -/
def Obligations.OnlyCommandsAndResetChangeTheBlock : Prop :=
  ∀ s t : State, step s = .next t → ¬ SameBlock s t →
    (∃ w rest, s.pending = .command w :: rest) ∨ (∃ rest, s.pending = .reset :: rest)

/-- Rule R45: a read returns the state after every command written before it. The stream, the position,
which a read leaves, and the list of returned words are the model's (log entries 3, 4 and 5). -/
def Obligations.ReadSeesEarlierCommands : Prop :=
  ∀ (s u : State) w addr rest, s.pending = .command w :: .read addr :: rest →
    runCommand w (s.accept (.read addr :: rest)) = .next u →
      ∃ t : State, Host.Core.run core 2 s = .next t ∧ t.observed = s.observed ++ [readWord u addr] ∧
        SameBlock u t ∧ t.pending = rest ∧ t.position = s.position + 1

/-! ### The read port -/

/-- Rule R26: the register map, at every word address, with the reset values of its last column. -/
def Obligations.ReadPortReturnsTheRegisterMap : Prop :=
  (∀ (s : State) (addr : ReadAddr), addr.toNat % 4 = 0 →
      MapReturns s addr.toNat (readWord s addr).toNat) ∧
    (∀ addr : ReadAddr, (addr.toNat < 0x200 ∨ 0x240 ≤ addr.toNat) → readWord State.reset addr = 0#32) ∧
    (∀ i, i < 64 → State.reset.fbufByte i = Config.fbufInit i)

/-- Rule R27: a read has no side effect, the port ignores address bits 1:0, reserved bits read 0, and an
unmapped address reads 0 and raises nothing. The clauses on the stream, on the position, which a read
leaves, and on the list of returned words are the model's (log entries 3, 4 and 5). -/
def Obligations.ReadHasNoSideEffect : Prop :=
  (∀ (s : State) addr rest, s.pending = .read addr :: rest →
    ∃ t, step s = .next t ∧ SameBlock s t ∧ t.pending = rest ∧ t.position = s.position ∧
      t.observed = s.observed ++ [readWord s (addr &&& 0x3FC#10)]) ∧
  (∀ (s : State) (addr : ReadAddr), ¬ Mapped (addr &&& 0x3FC#10).toNat → readWord s addr = 0#32) ∧
  (∀ (s : State) (n : Nat), n = 3 ∨ 6 ≤ n → (readWord s 0x000#10).getLsbD n = false) ∧
  (∀ (s : State) (n : Nat), 16 ≤ n → (readWord s 0x004#10).getLsbD n = false) ∧
  (∀ (s : State) (n : Nat), 8 ≤ n → (readWord s 0x008#10).getLsbD n = false) ∧
  (∀ (s : State) (n : Nat), 4 ≤ n → (readWord s 0x00C#10).getLsbD n = false)

/-- Rule R41 (which the spec derives from R29 and R37): the word of the FBUF window at 0x200 + 4j equals
MemRead(4j, 4). -/
def Obligations.WindowWordIsMemRead : Prop :=
  ∀ (s : State) (j : Nat), j < 16 → readWord s (BitVec.ofNat 10 (0x200 + 4 * j)) = s.memRead (4 * j) 4

/-! ### Reading the frame buffer -/

/-- Rule R37: the unsigned value of a field is the little-endian sum of its bytes. -/
def Obligations.MemReadIsTheLittleEndianSum : Prop :=
  ∀ (s : State) off n, (s.memRead off n).toNat = leSum s off n

/-- Rule R40 (which the spec derives from R37): reads of different widths at one offset agree in their
low bits; LDU8 and LDS16 do. -/
def Obligations.MixedWidthReadsAgree : Prop :=
  (∀ (s : State) off m n, m < n → (s.memRead off n).setWidth (8 * m) = s.memRead off m) ∧
    (∀ (s t u : State) off, off ≤ 62 → exec (.ldu8 off) s = .next t → exec (.lds16 off) s = .next u →
      t.res.setWidth 8 = u.res.setWidth 8)

/-! ### The CRC -/

/-- Rule R80: `crc8_update` is the source's loop on numbers; that the mask may stand before the XOR or
after it is the spec's own inference ("[derived: from the quoted text]"); and `crc8` (rule R81) folds it
from 0x00. -/
def Obligations.CrcIsTheSourceLoop : Prop :=
  (∀ c b : Byte, (crc8Update c b).toNat = Source.crcUpdate c.toNat b.toNat) ∧
    (∀ c : Nat, ((c <<< 1) ^^^ 0x07) &&& 0xFF = ((c <<< 1) &&& 0xFF) ^^^ 0x07) ∧
    (∀ bs : List Byte, (crc8 bs).toNat = Source.crc bs)

/-- Rule R89 (which the spec derives from R80): the worked update, step by step. -/
def Obligations.WorkedCrcUpdate : Prop :=
  crc8Update 0x00#8 0xA5#8 = 0x72#8 ∧
    (List.range 9).map (fun n => crc8Shifts n 0xA5#8) =
      [0xA5#8, 0x4D#8, 0x9A#8, 0x33#8, 0x66#8, 0xCC#8, 0x9F#8, 0x39#8, 0x72#8]

/-- Rule R86 (which the spec derives from R80 and R81): `crc8` is linear over GF(2) for sequences of
equal length. -/
def Obligations.CrcIsLinear : Prop :=
  ∀ a b : List Byte, a.length = b.length →
    crc8 (List.zipWith (· ^^^ ·) a b) = crc8 a ^^^ crc8 b

/-- Rule R87 (which the spec derives from R80 and R81): composition, through the commands too, and
residue, on an accepted frame too. -/
def Obligations.CrcComposesAndLeavesNoResidue : Prop :=
  (∀ a b : List Byte, crc8 (a ++ b) = b.foldl crc8Update (crc8 a)) ∧
    (∀ (s t u v t' v' : State) o n₁ n₂, o + n₁ + n₂ ≤ 64 →
      exec .crcinit s = .next t → exec (.crcrange o n₁) t = .next u →
      exec (.crcrange (o + n₁) n₂) u = .next v →
      exec .crcinit s = .next t' → exec (.crcrange o (n₁ + n₂)) t' = .next v' → v.crc = v'.crc) ∧
    (∀ c : Byte, crc8Update c c = 0x00#8) ∧
    (∀ m : List Byte, crc8 (m ++ [crc8 m]) = 0x00#8) ∧
    (∀ (s : State) r, DecodeAccepts s r → crc8 (s.fbufBytes 0 62) = 0x00#8)

/-- Rule R88 (which the spec derives from R86): changing one byte of a message changes its CRC. -/
def Obligations.OneByteChangeChangesTheCrc : Prop :=
  ∀ (m : List Byte) (i : Nat) (b : Byte) (h : i < m.length), b ≠ m[i] → crc8 (m.set i b) ≠ crc8 m

/-! ### One statement per command -/

/-- Rules R58, R70: NOP is the all-zero word and no other, and leaves every state as it is. It does not
claim that no other word leaves the state as it is (log entry 9). -/
def Obligations.NopIsTheZeroWordAndLeavesTheState : Prop :=
  (∀ w, decode w = .ok .nop ↔ w = 0x00000000#32) ∧ ∀ s : State, exec .nop s = .next s

/-- Rule R71: CLEAR sets BUFLEN, CRC, RES, FCLASS and STATUS to 0 and nothing else; DECODE then rejects,
until the bytes pushed since are 64; and CLEAR is the only command that takes ERR from 1 to 0. -/
def Obligations.ClearStartsANewFrame : Prop :=
  decode 0x00000001#32 = .ok .clear ∧ ClassNIllegal 0x01#8 ∧
    (∀ s : State, ∃ t, exec .clear s = .next t ∧ t.buflen = 0#16 ∧ t.crc = 0x00#8 ∧ t.res = 0#64 ∧
      t.fclass = 0#4 ∧ t.status.valid = false ∧ t.status.mtch = false ∧ t.status.err = false ∧
      t.status.errcode = 0#2 ∧ t.status.word = 0#32 ∧
      SameExcept [.buflen, .crc, .res, .fclass, .valid, .mtch, .errs] s t ∧ DecodeRejects t) ∧
    (∀ (h : List Byte) (u : State), AgreesWithHistory h u → h.length ≠ 64 → DecodeRejects u) ∧
    (∀ i (s t : State), s.status.err = true → exec i s = .next t → t.status.err = false → i = .clear)

/-- Rule R72: PUSH stores its byte at BUFLEN while that is below 64, discards it otherwise, and counts
it, saturating at 0xFFFF. -/
def Obligations.PushAppendsAndCountsOneByte : Prop :=
  (∀ b : Byte, decode (((b.setWidth 32 : Word) <<< 16) ||| 0x02#32) = .ok (.push b)) ∧
    MatchedBy 0x00000002#32 0xFF00FFFF#32 (fun i => ∃ b, i = .push b) ∧ ClassIIllegal 0x02#8 ∧
    (∀ s : State, s.pushAddress = if s.buflen.toNat < 64 then some s.buflen.toNat else none) ∧
    (∀ (b : Byte) (s : State), ∃ t, exec (.push b) s = .next t ∧
      t.buflen.toNat = min (s.buflen.toNat + 1) 0xFFFF ∧
      (∀ a, s.pushAddress = some a →
        t.fbufByte a = b ∧ ∀ i, i ≠ a → t.fbufByte i = s.fbufByte i) ∧
      (s.pushAddress = none → ∀ i, t.fbufByte i = s.fbufByte i) ∧
      SameExcept [.fbuf, .buflen] s t ∧
      (64 ≤ s.buflen.toNat → DecodeRejects t))

/-- Rule R82: CRCINIT sets CRC to 0x00, as reset and CLEAR do, and changes nothing else. -/
def Obligations.CrcinitResetsTheRegister : Prop :=
  decode 0x00000010#32 = .ok .crcinit ∧ ClassNIllegal 0x10#8 ∧
    (∀ s : State, ∃ t, exec .crcinit s = .next t ∧ t.crc = 0x00#8 ∧ SameExcept [.crc] s t ∧
      s.resetEvent.crc = t.crc ∧ ∃ u, exec .clear s = .next u ∧ u.crc = t.crc)

/-- Rule R83: CRCBYTE feeds one immediate byte to CRC and changes nothing else. -/
def Obligations.CrcbyteFeedsOneByte : Prop :=
  (∀ b : Byte, decode (((b.setWidth 32 : Word) <<< 16) ||| 0x11#32) = .ok (.crcbyte b)) ∧
    MatchedBy 0x00000011#32 0xFF00FFFF#32 (fun i => ∃ b, i = .crcbyte b) ∧ ClassIIllegal 0x11#8 ∧
    (∀ (b : Byte) (s : State), ∃ t, exec (.crcbyte b) s = .next t ∧
      t.crc.toNat = Source.crcUpdate s.crc.toNat b.toNat ∧ SameExcept [.crc] s t ∧
      (s.crc = b → t.crc = 0x00#8) ∧ (s.crc = 0x00#8 → b = 0x01#8 → t.crc = 0x07#8))

/-- Rule R84: CRCRANGE feeds cnt frame-buffer bytes to CRC in one step; out of range it is a RANGE error
that leaves CRC as it is; on frame V-F1 the CRC of bytes 0..60 is 0x27. -/
def Obligations.CrcrangeFeedsARange : Prop :=
  (∀ off cnt, off ≤ 255 → cnt ≤ 255 →
      decode ((BitVec.ofNat 32 cnt <<< 16) ||| (BitVec.ofNat 32 off <<< 8) ||| 0x12#32) =
        .ok (.crcrange off cnt)) ∧
    MatchedBy 0x00000012#32 0xFF0000FF#32 (fun i => ∃ off cnt, i = .crcrange off cnt) ∧
    ClassOCIllegal 0x12#8 ∧
    (∀ off cnt (s : State), off + cnt ≤ 64 → ∃ t, exec (.crcrange off cnt) s = .next t ∧
      t.crc.toNat = crcOver s.crc.toNat s off cnt ∧ SameExcept [.crc] s t ∧
      (cnt = 0 → t.crc = s.crc) ∧
      (s.frame = frameF1 → s.crc = 0x00#8 → off = 0 → cnt = 61 → t.crc = 0x27#8)) ∧
    (∀ off cnt (s : State), 64 < off + cnt → RaisesRange (.crcrange off cnt) s)

/-- Rule R85: CRCCHK sets MATCH to whether CRC equals FBUF[off] in all 8 bits, and changes nothing else;
out of range it is a RANGE error that leaves MATCH as it is. -/
def Obligations.CrcchkComparesAllBits : Prop :=
  (∀ off, off ≤ 255 → decode ((BitVec.ofNat 32 off <<< 8) ||| 0x13#32) = .ok (.crcchk off)) ∧
    MatchedBy 0x00000013#32 0xFFFF00FF#32 (fun i => ∃ off, i = .crcchk off) ∧ ClassOIllegal 0x13#8 ∧
    (∀ off (s : State), off ≤ 63 → ∃ t, exec (.crcchk off) s = .next t ∧
      (t.status.mtch = true ↔ ∀ n, n < 8 → s.crc.getLsbD n = (s.fbufByte off).getLsbD n) ∧
      SameExcept [.mtch] s t ∧
      (s.frame = frameF1 → s.crc = 0x27#8 → off = 61 → t.status.mtch = true)) ∧
    (∀ off (s : State), 63 < off → RaisesRange (.crcchk off) s)

/-- Rule R96: LDU8 loads one byte, zero-extended, and changes nothing else; past offset 63 it is a RANGE
error that leaves RES as it is. -/
def Obligations.Ldu8LoadsAnUnsignedByte : Prop :=
  (∀ off, off ≤ 255 → decode ((BitVec.ofNat 32 off <<< 8) ||| 0x20#32) = .ok (.ldu8 off)) ∧
    MatchedBy 0x00000020#32 0xFFFF00FF#32 (fun i => ∃ off, i = .ldu8 off) ∧ ClassOIllegal 0x20#8 ∧
    (∀ off (s : State), off ≤ 63 → ∃ t, exec (.ldu8 off) s = .next t ∧
      t.res.toNat = (s.fbufByte off).toNat ∧ SameExcept [.res] s t ∧
      (s.frame = frameF1 → off = 5 → t.res = 0x2A#64)) ∧
    (∀ off (s : State), 63 < off → RaisesRange (.ldu8 off) s)

/-- Rule R97: LDS16 loads a two's-complement little-endian 16-bit integer (two's complement is item G1,
log entry 7), sign-extended, and changes nothing else; past offset 62 it is a RANGE error that leaves RES
as it is. -/
def Obligations.Lds16LoadsASignedInteger : Prop :=
  (∀ off, off ≤ 255 → decode ((BitVec.ofNat 32 off <<< 8) ||| 0x21#32) = .ok (.lds16 off)) ∧
    MatchedBy 0x00000021#32 0xFFFF00FF#32 (fun i => ∃ off, i = .lds16 off) ∧ ClassOIllegal 0x21#8 ∧
    (∀ off (s : State), off ≤ 62 → ∃ t, exec (.lds16 off) s = .next t ∧
      t.res.toInt = sint16 (leSum s off 2) ∧ SameExcept [.res] s t ∧
      (s.fbufByte off = 0x00#8 → s.fbufByte (off + 1) = 0x80#8 → t.res = 0xFFFFFFFFFFFF8000#64) ∧
      (s.fbufByte off = 0xFF#8 → s.fbufByte (off + 1) = 0x7F#8 → t.res = 0x7FFF#64) ∧
      (s.fbufByte off = 0xFF#8 → s.fbufByte (off + 1) = 0xFF#8 → t.res = 0xFFFFFFFFFFFFFFFF#64) ∧
      (s.frame = frameF1 → off = 49 → t.res = 0xFFFFFFFFFFFFFFF4#64)) ∧
    (∀ off (s : State), 62 < off → RaisesRange (.lds16 off) s)

/-- Rule R98: LDU64 loads an unsigned little-endian 64-bit integer and changes nothing else; past offset
56 it is a RANGE error that leaves RES as it is. -/
def Obligations.Ldu64LoadsAnUnsignedInteger : Prop :=
  (∀ off, off ≤ 255 → decode ((BitVec.ofNat 32 off <<< 8) ||| 0x22#32) = .ok (.ldu64 off)) ∧
    MatchedBy 0x00000022#32 0xFFFF00FF#32 (fun i => ∃ off, i = .ldu64 off) ∧ ClassOIllegal 0x22#8 ∧
    (∀ off (s : State), off ≤ 56 → ∃ t, exec (.ldu64 off) s = .next t ∧
      t.res.toNat = leSum s off 8 ∧ SameExcept [.res] s t ∧
      (s.frame = frameF1 → off = 6 → t.res = 0x0000018BCFE5687B#64)) ∧
    (∀ off (s : State), 56 < off → RaisesRange (.ldu64 off) s)

/-- Rules R99, R102: LDF32 loads a little-endian binary32 pattern bit for bit, NaNs and subnormals
included, and its class, and changes nothing else; past offset 60 it is a RANGE error that leaves RES and
FCLASS as they are. The class and the example's value are the table of rule R104 and the formula of rule
R101, which the spec marks as derived from general knowledge (item G3, log entry 8). -/
def Obligations.Ldf32LoadsThePatternAndItsClass : Prop :=
  (∀ off, off ≤ 255 → decode ((BitVec.ofNat 32 off <<< 8) ||| 0x23#32) = .ok (.ldf32 off)) ∧
    MatchedBy 0x00000023#32 0xFFFF00FF#32 (fun i => ∃ off, i = .ldf32 off) ∧ ClassOIllegal 0x23#8 ∧
    (∀ off (s : State), off ≤ 60 → ∃ t, exec (.ldf32 off) s = .next t ∧
      t.res.toNat = leSum s off 4 ∧ HasClass (leSum s off 4) t.fclass.toNat ∧
      SameExcept [.res, .fclass] s t ∧
      (s.frame = frameF1 → off = 14 → t.res = 0x3F800000#64 ∧ t.fclass = 0x2#4 ∧
        (f32val (t.res.setWidth 32)).rat? = some 1)) ∧
    (∀ off (s : State), 60 < off → RaisesRange (.ldf32 off) s)

/-- Rules R116, R117, R122: DECODE is the source's steps on FBUF and BUFLEN: on a buffer of 64 bytes its
verdict and record are the source's, any other length is rejected, a rejection changes VALID alone; V-F1
gives V-D1. -/
def Obligations.DecodeFollowsTheSourceSteps : Prop :=
  decode 0x00000030#32 = .ok .decode ∧ ClassNIllegal 0x30#8 ∧
    (∀ s : State, s.buflen.toNat = 64 → ∀ r, Source.decode s.frame = some r → DecodeAccepts s r) ∧
    (∀ s : State, s.buflen.toNat = 64 → Source.decode s.frame = none → DecodeRejects s) ∧
    (∀ s : State, s.buflen.toNat ≠ 64 → DecodeRejects s) ∧
    (∀ s : State, s.buflen.toNat = 64 → s.frame = frameF1 → DecodeAccepts s recordD1)

/-! ### DECODE's laws -/

/-- Rule R127 (which the spec derives from R116 and R31): DECODE writes only VALID and, when it accepts,
REC, and a second DECODE right after changes nothing at all. -/
def Obligations.DecodeIsIdempotent : Prop :=
  ∀ s t : State, exec .decode s = .next t →
    SameExcept [.valid, .record] s t ∧ (t.status.valid = false → SameExcept [.valid] s t) ∧
      exec .decode t = .next t

/-- Rule R25 (which the spec derives from R117 to R122): the verdict, and the record of an accepted
frame, depend on FBUF and on whether BUFLEN is 64, and on nothing else of the state. -/
def Obligations.DecodeDependsOnTheFrameAlone : Prop :=
  ∀ s₁ s₂ t₁ t₂ : State, s₁.frame = s₂.frame → (s₁.buflen.toNat = 64 ↔ s₂.buflen.toNat = 64) →
    exec .decode s₁ = .next t₁ → exec .decode s₂ = .next t₂ →
      t₁.status.valid = t₂.status.valid ∧ (t₁.status.valid = true → t₁.record = t₂.record)

/-- Rules R124, R125: the head, the domain and the tail are not checked and not stored: two frames that
agree on offsets 3..60 and each carry their own right checksum get one verdict and, when accepted, one
record. -/
def Obligations.HeadDomainAndTailAreNotChecked : Prop :=
  ∀ s₁ s₂ t₁ t₂ : State, s₁.buflen = s₂.buflen →
    (∀ i, 3 ≤ i → i ≤ 60 → s₁.fbufByte i = s₂.fbufByte i) →
    (∀ s ∈ [s₁, s₂], crc8 (s.fbufBytes 0 61) = s.fbufByte 61) →
    exec .decode s₁ = .next t₁ → exec .decode s₂ = .next t₂ →
      t₁.status.valid = t₂.status.valid ∧ (t₁.status.valid = true → t₁.record = t₂.record)

/-- Rules R122, R129: a frame whose command byte is not 1 is rejected whatever else holds, and so is one
that fails any other check; the rejection changes VALID alone, so REC keeps its content. -/
def Obligations.EachFailedCheckRejects : Prop :=
  (∀ s : State, s.fbufByte 3 ≠ 0x01#8 → DecodeRejects s) ∧
    (∀ (s : State) n, RejectCondition s n → DecodeRejects s)

/-- Rule R141, and R126 (which the spec derives from R116 and R122): the ghost cause is the lowest number
whose condition holds; a frame with none is accepted; and no cause can be told from another by what
DECODE leaves. The ghost is a function of the state (log entry 17). -/
def Obligations.RejectCauseIsTheFirstCondition : Prop :=
  (∀ (s : State) c, rejectCause s = some c →
    RejectCondition s c.number ∧ (∀ n, n < c.number → ¬ RejectCondition s n) ∧ DecodeRejects s) ∧
  (∀ s : State, rejectCause s = none ↔ ∀ n, ¬ RejectCondition s n) ∧
  (∀ s : State, rejectCause s = none → DecodeAccepts s (Source.record s.frame))

/-- Rule R128 (which the spec derives from R119 and R88): for an accepted frame, changing any one byte
among offsets 0..61 makes DECODE reject; a flipped bit of the checksum byte is such a change. -/
def Obligations.OneByteChangeIsRejected : Prop :=
  ∀ (s s' : State) (a : Nat) r, DecodeAccepts s r → a ≤ 61 → s'.buflen = s.buflen →
    s'.fbufByte a ≠ s.fbufByte a → (∀ i, i ≠ a → s'.fbufByte i = s.fbufByte i) → DecodeRejects s'

/-- Rule R123: after an accepting DECODE, the value of each record field is its raw value times its
scale: 1 for the first ten and for IMUStatus, 1/10 for Temperature, 1/10000 for the biases; the slots
hold the raw values; and a consumer that rounds by SCALE_ROUNDING gets, for each of the seven scaled
fields, that function of the exact product. The rounding as an argument is log entry 13, two's complement
is item G1, log entry 7, and the values of float fields are item G3, log entry 8. -/
def Obligations.RecordValuesAreRawTimesScale : Prop :=
  ∀ (s t : State) r, DecodeAccepts s r → exec .decode s = .next t →
    t.record.toList = Source.record s.frame ∧
    recordValue t 0 = some (.exact (Source.unsignedAt s.frame 5 1 : Nat)) ∧
    recordValue t 1 = some (.exact (Source.unsignedAt s.frame 6 8 : Nat)) ∧
    (∀ k off, (k, off) ∈ [(2, 14), (3, 18), (4, 22), (5, 26), (6, 30), (7, 34), (8, 38), (9, 42)] →
      recordValue t k = some (.float (f32val (BitVec.ofNat 32 (Source.unsignedAt s.frame off 4))))) ∧
    recordValue t 10 = some (.exact ((Source.signed16At s.frame 46 : Rat) / 10)) ∧
    recordValue t 11 = some (.exact (Source.unsignedAt s.frame 48 1 : Nat)) ∧
    (∀ k off, (k, off) ∈ [(12, 49), (13, 51), (14, 53), (15, 55), (16, 57), (17, 59)] →
      recordValue t k = some (.exact ((Source.signed16At s.frame off : Rat) / 10000))) ∧
    (∀ (Fmt : Type) (scaleRounding : Rat → Fmt),
      consumerValue scaleRounding t 10 =
        some (scaleRounding ((Source.signed16At s.frame 46 : Rat) / 10)) ∧
      ∀ k off, (k, off) ∈ [(12, 49), (13, 51), (14, 53), (15, 55), (16, 57), (17, 59)] →
        consumerValue scaleRounding t k =
          some (scaleRounding ((Source.signed16At s.frame off : Rat) / 10000)))

/-! ### Binary32 -/

/-- Rule R104 (which the spec derives from R100 and R101, both general knowledge: item G3, log entry 8):
the class of every pattern, and that the class values 5 to 7 never occur. -/
def Obligations.FclassFollowsTheTable : Prop :=
  ∀ w : BitVec 32, HasClass w.toNat (fclassOf w).toNat

/-- Rule R101 (general knowledge by the spec's own mark: item G3, log entry 8): the value of every
pattern, as an exact rational where it is finite. -/
def Obligations.BinaryValueFollowsTheFormula : Prop :=
  ∀ w : BitVec 32,
    (exponentOf w.toNat = 0 ∧ fractionOf w.toNat = 0 →
      f32val w = .zero (w.getLsbD 31) ∧ (f32val w).rat? = some 0) ∧
    (exponentOf w.toNat = 0 ∧ fractionOf w.toNat ≠ 0 →
      (f32val w).rat? = some ((-1) ^ (w.toNat / 2 ^ 31) * fractionOf w.toNat * (2 : Rat) ^ (-149 : Int))) ∧
    (1 ≤ exponentOf w.toNat ∧ exponentOf w.toNat ≤ 254 →
      (f32val w).rat? = some ((-1) ^ (w.toNat / 2 ^ 31) * (2 ^ 23 + fractionOf w.toNat) *
        (2 : Rat) ^ ((exponentOf w.toNat : Int) - 150))) ∧
    (exponentOf w.toNat = 255 ∧ fractionOf w.toNat = 0 → f32val w = .infinity (w.getLsbD 31)) ∧
    (exponentOf w.toNat = 255 ∧ fractionOf w.toNat ≠ 0 → f32val w = .nan)

/-! ### Command errors -/

/-- Rules R137, R139: every command error, however raised, is precise; ILLEGAL comes first, so a word
with a nonzero RSV raises ILLEGAL whatever its offset; RANGE is raised only for a word that decoded. That
the word leaves the host's stream and moves the position on by one is the model's (log entries 3 and 4).
-/
def Obligations.CommandErrorsArePrecise : Prop :=
  ∀ (s : State) w rest, s.pending = .command w :: rest →
    (IsIllegal w → ∃ t, step s = .next t ∧ IsErrorOf 1 (s.accept rest) t) ∧
    (rsvField w ≠ 0 → ∃ t, step s = .next t ∧ IsErrorOf 1 (s.accept rest) t) ∧
    (∀ i, decode w = .ok i → ¬ RangeLegal i → ∃ t, step s = .next t ∧ IsErrorOf 2 (s.accept rest) t)

/-- Rule R136: a command is a RANGE error exactly when it is one of the six that read FBUF at their
offset and its bytes would pass FBUF[63]; otherwise it touches ERR and ERRCODE only as CLEAR does. -/
def Obligations.RangeErrorsAreExactlyTheSix : Prop :=
  (∀ i (s : State), ¬ RangeLegal i → RaisesRange i s) ∧
    (∀ i (s : State), RangeLegal i → ∃ t, exec i s = .next t ∧
      (i ≠ .clear → Col.errs.Same s t) ∧ (i = .clear → t.status.err = false)) ∧
    (∀ i, ¬ RangeLegal i → (∃ off cnt, i = .crcrange off cnt) ∨ (∃ off, i = .crcchk off ∨
      i = .ldu8 off ∨ i = .lds16 off ∨ i = .ldu64 off ∨ i = .ldf32 off))

/-- Rule R138: ERR stays 1 and ERRCODE keeps the first error's code until a CLEAR (or a reset, rule
R160); and a command does the same to everything else whatever ERR and ERRCODE hold. -/
def Obligations.ErrorsAreStickyAndDoNotStopTheBlock : Prop :=
  (∀ (s t : State) item rest, s.pending = item :: rest → step s = .next t → s.status.err = true →
    (t.status.err = true ∧ t.status.errcode = s.status.errcode) ∨
      item = .command 0x00000001#32 ∨ item = .reset) ∧
  (∀ i (s t : State) e c, exec i s = .next t →
    ∃ u, exec i (withErrs s e c) = .next u ∧ SameExcept [.errs] t u)

/-! ### The whole machine -/

/-- Rule R31: the read/write matrix. A command changes only the columns it writes (a command error only
ERR and ERRCODE), and what it does to them depends only on the columns it reads. -/
def Obligations.ReadWriteMatrixHolds : Prop :=
  (∀ i (s t : State), exec i s = .next t →
    (RangeLegal i → SameExcept (writtenCols i) s t) ∧ (¬ RangeLegal i → SameExcept [.errs] s t)) ∧
  (∀ i (s₁ s₂ t₁ t₂ : State), RangeLegal i → exec i s₁ = .next t₁ → exec i s₂ = .next t₂ →
    (∀ c ∈ readCols i, c.Same s₁ s₂) → ∀ c, SameOrKept c s₁ s₂ t₁ t₂)

/-- Rule R22: only a DECODE that accepts writes REC (the reset event apart, rule R160), and it writes all
18 slots in that step. -/
def Obligations.OnlyAnAcceptingDecodeWritesTheRecord : Prop :=
  ∀ s t : State, step s = .next t → t.record ≠ s.record →
    (∃ rest, s.pending = .command 0x00000030#32 :: rest ∧ t.status.valid = true ∧
      t.record.toList = Source.record s.frame) ∨
    (∃ rest, s.pending = .reset :: rest ∧ ∀ k, t.recSlot k = 0#64)

/-- Rule R15: only PUSH writes FBUF, and only the byte at BUFLEN. -/
def Obligations.OnlyPushWritesTheFrameBuffer : Prop :=
  ∀ (s t : State) a, step s = .next t → t.fbufByte a ≠ s.fbufByte a →
    ∃ w b rest, s.pending = .command w :: rest ∧ decode w = .ok (.push b) ∧
      a = s.buflen.toNat ∧ a < 64 ∧ t.fbufByte a = b

/-- Rule R160: the reset event sets every register and REC slot to its reset value, keeps FBUF, and takes
nothing else of the host's stream; at power-up FBUF is FBUF_INIT and the registers hold the same values.
That a reset event leaves the position and the returned words is log entry 23, and the stream is log
entry 3. -/
def Obligations.ResetSetsTheResetValues : Prop :=
  (∀ (s : State) rest, s.pending = .reset :: rest → ∃ t, step s = .next t ∧ IsResetOf s t ∧
    t.pending = rest ∧ t.position = s.position ∧ t.observed = s.observed) ∧
  IsResetOf State.reset State.reset ∧ (∀ i, i < 64 → State.reset.fbufByte i = Config.fbufInit i)

/-- Rule R163 (which the spec derives from R160): right after a reset a CLEAR changes nothing. -/
def Obligations.ClearRightAfterResetChangesNothing : Prop :=
  ∀ s : State, exec .clear s.resetEvent = .next s.resetEvent ∧ exec .clear State.reset = .next State.reset

/-- Rules R17, R20, R21, R36: every step keeps the invariant. FBUF's canonical form is the model's (log
entry 2). -/
def Obligations.EveryStepKeepsTheInvariant : Prop :=
  ∀ s t : State, s.Inv → step s = .next t → t.Inv

/-- The invariant holds right after power-up. -/
def Obligations.ResetMeetsTheInvariant : Prop := State.reset.Inv

/-- Rules R16, R17: BUFLEN and FBUF always are what the bytes pushed since the last CLEAR or reset say,
in order: every step keeps it, and a CLEAR or a reset starts it from any state. -/
def Obligations.BufferHoldsTheBytesPushedSinceClear : Prop :=
  (∀ (h : List Byte) (s t : State) item rest, AgreesWithHistory h s → s.pending = item :: rest →
    step s = .next t → AgreesWithHistory (pushHistory h item) t) ∧
  (∀ (s t : State) item rest, s.pending = item :: rest → step s = .next t →
    (item = .command 0x00000001#32 ∨ item = .reset) → AgreesWithHistory [] t) ∧
  (∀ (h : List Byte) (s : State), AgreesWithHistory h s → s.buflen.toNat = 64 → s.frame = h)

/-- Rule R73 (which the spec derives from R71, R72 and R117): for a host that writes CLEAR, then any
bytes by PUSH, then DECODE, from any state: BUFLEN and FBUF are as pushed, and the verdict and the record
are those of the source's `decode` on those bytes, for every number of bytes and every FBUF_INIT. The
stream, the position and the returned words are the model's (log entries 3, 4 and 5), and so is
`hostWrites` (log entry 6). -/
def Obligations.PushedFrameDecodesAsTheSourceDoes : Prop :=
  ∀ (s : State) (bs : List Byte) (rest : List HostItem), ∃ t : State,
    Host.Core.run core (bs.length + 2)
        (s.hostWrites (encode .clear :: bs.map (fun b => encode (.push b)) ++ [encode .decode]) rest) =
      .next t ∧
    t.buflen.toNat = min bs.length 0xFFFF ∧
    (∀ i (h : i < bs.length), i < 64 → t.fbufByte i = bs[i]) ∧
    (∀ r, Source.decode bs = some r → t.status.valid = true ∧ t.record.toList = r) ∧
    (Source.decode bs = none → t.status.valid = false ∧ t.record = s.record) ∧
    t.pending = rest ∧ t.position = s.position + bs.length + 2 ∧ t.observed = s.observed

/-- Rule R63 (its verdict the spec derives from R84, R85 and R119): the expansions of the
pseudo-instructions, and that VERIFY leaves MATCH equal to the checksum verdict of rule R119, whatever
BUFLEN, the command byte and the length byte hold. The stream and `hostWrites` are the model's (log
entries 3 and 6). -/
def Obligations.VerifyLeavesTheChecksumVerdict : Prop :=
  (∀ bs : List Byte, (Pseudo.loadframe bs).words =
      0x00000001#32 :: bs.map (fun b => ((b.setWidth 32 : Word) <<< 16) ||| 0x02#32)) ∧
    (∀ off cnt, (Pseudo.crc8 off cnt).words = [0x00000010#32, encode (.crcrange off cnt)]) ∧
    Pseudo.verify.words = [0x00000010#32, 0x003D0012#32, 0x00003D13#32] ∧
    (∀ (s : State) (rest : List HostItem), ∃ t : State,
      Host.Core.run core 3 (s.hostWrites Pseudo.verify.words rest) = .next t ∧
      (t.status.mtch = true ↔ Source.crc (s.fbufBytes 0 61) = (s.fbufByte 61).toNat) ∧
      t.crc.toNat = Source.crc (s.fbufBytes 0 61) ∧
      (∀ c, c ∉ [Col.crc, Col.mtch] → c.Same s t) ∧ t.pending = rest)
end

