-- ==== Sys2Proof/Laws/Decode.lean ====
section
/-! SUPPORT. The decoder and the encoder by fields: a word is its four fields, a row's mask acts field by
field, and so which words are which command. -/

namespace Sys2Proof

/-- The word with these fields, RSV first (rule R52). -/
def fieldWord (r m o p : BitVec 8) : Word := r ++ m ++ o ++ p

/-- The word of four fields as a number. -/
theorem fieldWord_toNat (r m o p : BitVec 8) :
    (fieldWord r m o p).toNat =
      r.toNat * 2 ^ 24 + m.toNat * 2 ^ 16 + o.toNat * 2 ^ 8 + p.toNat := by
  unfold fieldWord
  rw [BitVec.toNat_append, BitVec.toNat_append, BitVec.toNat_append,
    ← Nat.shiftLeft_add_eq_or_of_lt p.isLt, ← Nat.shiftLeft_add_eq_or_of_lt o.isLt,
    ← Nat.shiftLeft_add_eq_or_of_lt m.isLt]
  simp only [Nat.shiftLeft_eq]
  omega

/-! ### The fields as numbers -/

theorem opField_toNat (w : Word) : (opField w).toNat = w.toNat % 2 ^ 8 := by
  simp [opField, BitVec.extractLsb'_toNat, Nat.shiftRight_eq_div_pow]

theorem offField_toNat (w : Word) : (offField w).toNat = w.toNat / 2 ^ 8 % 2 ^ 8 := by
  simp [offField, BitVec.extractLsb'_toNat, Nat.shiftRight_eq_div_pow]

theorem immField_toNat (w : Word) : (immField w).toNat = w.toNat / 2 ^ 16 % 2 ^ 8 := by
  simp [immField, BitVec.extractLsb'_toNat, Nat.shiftRight_eq_div_pow]

theorem rsvField_toNat (w : Word) : (rsvField w).toNat = w.toNat / 2 ^ 24 := by
  simp [rsvField, BitVec.extractLsb'_toNat, Nat.shiftRight_eq_div_pow]
  have := w.isLt
  omega

/-! ### A word and its fields -/

/-- Every word is the word of its four fields. -/
theorem fieldWord_fields (w : Word) :
    fieldWord (rsvField w) (immField w) (offField w) (opField w) = w := by
  apply BitVec.eq_of_toNat_eq
  rw [fieldWord_toNat, opField_toNat, offField_toNat, immField_toNat, rsvField_toNat]
  have := w.isLt
  omega

@[simp] theorem opField_fieldWord (r m o p : BitVec 8) : opField (fieldWord r m o p) = p := by
  apply BitVec.eq_of_toNat_eq
  rw [opField_toNat, fieldWord_toNat]
  have := p.isLt
  omega

@[simp] theorem offField_fieldWord (r m o p : BitVec 8) : offField (fieldWord r m o p) = o := by
  apply BitVec.eq_of_toNat_eq
  rw [offField_toNat, fieldWord_toNat]
  have := p.isLt
  have := o.isLt
  omega

@[simp] theorem immField_fieldWord (r m o p : BitVec 8) : immField (fieldWord r m o p) = m := by
  apply BitVec.eq_of_toNat_eq
  rw [immField_toNat, fieldWord_toNat]
  have := p.isLt
  have := o.isLt
  have := m.isLt
  omega

@[simp] theorem rsvField_fieldWord (r m o p : BitVec 8) : rsvField (fieldWord r m o p) = r := by
  apply BitVec.eq_of_toNat_eq
  rw [rsvField_toNat, fieldWord_toNat]
  have := p.isLt
  have := o.isLt
  have := m.isLt
  have := r.isLt
  omega

/-- Words of fields are equal field by field. -/
theorem fieldWord_inj {r m o p r' m' o' p' : BitVec 8} :
    fieldWord r m o p = fieldWord r' m' o' p' ↔ r = r' ∧ m = m' ∧ o = o' ∧ p = p' := by
  constructor
  · intro h
    exact ⟨by simpa using congrArg rsvField h, by simpa using congrArg immField h,
      by simpa using congrArg offField h, by simpa using congrArg opField h⟩
  · rintro ⟨rfl, rfl, rfl, rfl⟩
    rfl

/-- A mask acts field by field. -/
theorem fieldWord_and (r m o p r' m' o' p' : BitVec 8) :
    fieldWord r m o p &&& fieldWord r' m' o' p' =
      fieldWord (r &&& r') (m &&& m') (o &&& o') (p &&& p') := by
  unfold fieldWord
  apply BitVec.eq_of_getLsbD_eq
  intro i hi
  simp only [BitVec.getLsbD_and, BitVec.getLsbD_append]
  split_ifs <;> rfl

/-- A row's test, field by field. -/
theorem fieldWord_matches (r m o p rr mm oo pp a b c d : BitVec 8) :
    (fieldWord r m o p &&& fieldWord rr mm oo pp == fieldWord a b c d) =
      decide (r &&& rr = a ∧ m &&& mm = b ∧ o &&& oo = c ∧ p &&& pp = d) := by
  rw [fieldWord_and, beq_eq_decide, decide_eq_decide, fieldWord_inj]

/-! ### The opcode map by fields -/

/-- The decoder by fields (rules R54 to R56): which fields make a word which command. -/
theorem decode_fieldWord (r m o p : BitVec 8) : decode (fieldWord r m o p) =
    if r = 0#8 ∧ m = 0#8 ∧ o = 0#8 ∧ p = 0x00#8 then .ok .nop
    else if r = 0#8 ∧ m = 0#8 ∧ o = 0#8 ∧ p = 0x01#8 then .ok .clear
    else if r = 0#8 ∧ o = 0#8 ∧ p = 0x02#8 then .ok (.push m)
    else if r = 0#8 ∧ m = 0#8 ∧ o = 0#8 ∧ p = 0x10#8 then .ok .crcinit
    else if r = 0#8 ∧ o = 0#8 ∧ p = 0x11#8 then .ok (.crcbyte m)
    else if r = 0#8 ∧ p = 0x12#8 then .ok (.crcrange o.toNat m.toNat)
    else if r = 0#8 ∧ m = 0#8 ∧ p = 0x13#8 then .ok (.crcchk o.toNat)
    else if r = 0#8 ∧ m = 0#8 ∧ p = 0x20#8 then .ok (.ldu8 o.toNat)
    else if r = 0#8 ∧ m = 0#8 ∧ p = 0x21#8 then .ok (.lds16 o.toNat)
    else if r = 0#8 ∧ m = 0#8 ∧ p = 0x22#8 then .ok (.ldu64 o.toNat)
    else if r = 0#8 ∧ m = 0#8 ∧ p = 0x23#8 then .ok (.ldf32 o.toNat)
    else if r = 0#8 ∧ m = 0#8 ∧ o = 0#8 ∧ p = 0x30#8 then .ok .decode
    else .error (illegalWord (fieldWord r m o p)) := by
  have hall : ∀ x : BitVec 8, x &&& 0xFF#8 = x := fun x => by
    rw [show (0xFF#8) = BitVec.allOnes 8 by decide, BitVec.and_allOnes]
  have hnone : ∀ x : BitVec 8, (x &&& 0#8 = 0#8) = True := fun x => by simp
  unfold decode opcodeTable
  simp only [List.find?_cons, List.find?_nil, OpRow.matchesWord]
  rw [show (0xFFFFFFFF#32) = fieldWord 0xFF#8 0xFF#8 0xFF#8 0xFF#8 by decide,
    show (0xFF00FFFF#32) = fieldWord 0xFF#8 0#8 0xFF#8 0xFF#8 by decide,
    show (0xFF0000FF#32) = fieldWord 0xFF#8 0#8 0#8 0xFF#8 by decide,
    show (0xFFFF00FF#32) = fieldWord 0xFF#8 0xFF#8 0#8 0xFF#8 by decide,
    show (0x00#32) = fieldWord 0#8 0#8 0#8 0x00#8 by decide,
    show (0x01#32) = fieldWord 0#8 0#8 0#8 0x01#8 by decide,
    show (0x02#32) = fieldWord 0#8 0#8 0#8 0x02#8 by decide,
    show (0x10#32) = fieldWord 0#8 0#8 0#8 0x10#8 by decide,
    show (0x11#32) = fieldWord 0#8 0#8 0#8 0x11#8 by decide,
    show (0x12#32) = fieldWord 0#8 0#8 0#8 0x12#8 by decide,
    show (0x13#32) = fieldWord 0#8 0#8 0#8 0x13#8 by decide,
    show (0x20#32) = fieldWord 0#8 0#8 0#8 0x20#8 by decide,
    show (0x21#32) = fieldWord 0#8 0#8 0#8 0x21#8 by decide,
    show (0x22#32) = fieldWord 0#8 0#8 0#8 0x22#8 by decide,
    show (0x23#32) = fieldWord 0#8 0#8 0#8 0x23#8 by decide,
    show (0x30#32) = fieldWord 0#8 0#8 0#8 0x30#8 by decide]
  simp only [fieldWord_matches, hall, hnone]
  by_cases h0 : r = 0#8 ∧ m = 0#8 ∧ o = 0#8 ∧ p = 0x00#8
  · simp [h0]
  by_cases h1 : r = 0#8 ∧ m = 0#8 ∧ o = 0#8 ∧ p = 0x01#8
  · simp [h1]
  by_cases h2 : r = 0#8 ∧ o = 0#8 ∧ p = 0x02#8
  · simp [h2]
  by_cases h3 : r = 0#8 ∧ m = 0#8 ∧ o = 0#8 ∧ p = 0x10#8
  · simp [h3]
  by_cases h4 : r = 0#8 ∧ o = 0#8 ∧ p = 0x11#8
  · simp [h4]
  by_cases h5 : r = 0#8 ∧ p = 0x12#8
  · simp [h5, offOperand, cntOperand]
  by_cases h6 : r = 0#8 ∧ m = 0#8 ∧ p = 0x13#8
  · simp [h6, offOperand]
  by_cases h7 : r = 0#8 ∧ m = 0#8 ∧ p = 0x20#8
  · simp [h7, offOperand]
  by_cases h8 : r = 0#8 ∧ m = 0#8 ∧ p = 0x21#8
  · simp [h8, offOperand]
  by_cases h9 : r = 0#8 ∧ m = 0#8 ∧ p = 0x22#8
  · simp [h9, offOperand]
  by_cases h10 : r = 0#8 ∧ m = 0#8 ∧ p = 0x23#8
  · simp [h10, offOperand]
  by_cases h11 : r = 0#8 ∧ m = 0#8 ∧ o = 0#8 ∧ p = 0x30#8
  · simp [h11]
  simp [h0, h1, h2, h3, h4, h5, h6, h7, h8, h9, h10, h11]

/-! ### The encoder's words by fields (rule R62) -/

theorem classN_eq_fieldWord (op : BitVec 8) : classN op = fieldWord 0 0 0 op := by
  apply BitVec.eq_of_toNat_eq
  rw [fieldWord_toNat]
  have := op.isLt
  simp [classN]
  omega

theorem classI_eq_fieldWord (op m : BitVec 8) : classI op m = fieldWord 0 m 0 op := by
  apply BitVec.eq_of_toNat_eq
  rw [fieldWord_toNat]
  have := op.isLt
  have := m.isLt
  simp only [classI, BitVec.toNat_or, BitVec.toNat_shiftLeft, BitVec.toNat_setWidth, Nat.shiftLeft_eq]
  rw [Nat.mod_eq_of_lt (by omega), Nat.mod_eq_of_lt (by omega), Nat.mod_eq_of_lt (a := op.toNat) (by omega),
    ← Nat.shiftLeft_eq, ← Nat.shiftLeft_add_eq_or_of_lt (by omega), Nat.shiftLeft_eq]
  simp

theorem classOC_eq_fieldWord (op : BitVec 8) (o m : Nat) (ho : o ≤ 255) (hm : m ≤ 255) :
    classOC op o m = fieldWord 0 (BitVec.ofNat 8 m) (BitVec.ofNat 8 o) op := by
  apply BitVec.eq_of_toNat_eq
  rw [fieldWord_toNat]
  have := op.isLt
  simp only [classOC, BitVec.toNat_or, BitVec.toNat_shiftLeft, BitVec.toNat_setWidth, Nat.shiftLeft_eq,
    BitVec.toNat_ofNat]
  rw [Nat.mod_eq_of_lt (a := m) (by omega), Nat.mod_eq_of_lt (a := o) (by omega),
    Nat.mod_eq_of_lt (a := op.toNat) (by omega), Nat.mod_eq_of_lt (by omega),
    Nat.mod_eq_of_lt (by omega), Nat.mod_eq_of_lt (by omega), Nat.mod_eq_of_lt (by omega)]
  rw [show m * 2 ^ 16 = (m * 2 ^ 8) <<< 8 by rw [Nat.shiftLeft_eq]; omega, ← Nat.shiftLeft_eq o 8,
    ← Nat.shiftLeft_or_distrib, ← Nat.shiftLeft_add_eq_or_of_lt (by omega), ← Nat.shiftLeft_eq m 8,
    ← Nat.shiftLeft_add_eq_or_of_lt (by omega)]
  simp only [Nat.shiftLeft_eq]
  simp
  omega

theorem classO_eq_fieldWord (op : BitVec 8) (o : Nat) (ho : o ≤ 255) :
    classO op o = fieldWord 0 0 (BitVec.ofNat 8 o) op := by
  simpa [classOC, classO] using classOC_eq_fieldWord op o 0 ho (by omega)

end Sys2Proof
end

