-- ==== Sys2Proof/Laws/State.lean ====
section
/-! SUPPORT. One lemma per field of State per update, and per field of Status per flag operation: later
proofs cite these and unfold no record update. -/

namespace Sys2Proof.Machine

variable (s : State)

/-! #### setFbuf -/

@[simp] theorem State.setFbuf_fbuf (m : Memory) : (s.setFbuf m).fbuf = m := rfl
@[simp] theorem State.setFbuf_buflen (m : Memory) : (s.setFbuf m).buflen = s.buflen := rfl
@[simp] theorem State.setFbuf_crc (m : Memory) : (s.setFbuf m).crc = s.crc := rfl
@[simp] theorem State.setFbuf_res (m : Memory) : (s.setFbuf m).res = s.res := rfl
@[simp] theorem State.setFbuf_fclass (m : Memory) : (s.setFbuf m).fclass = s.fclass := rfl
@[simp] theorem State.setFbuf_status (m : Memory) : (s.setFbuf m).status = s.status := rfl
@[simp] theorem State.setFbuf_record (m : Memory) : (s.setFbuf m).record = s.record := rfl
@[simp] theorem State.setFbuf_pending (m : Memory) : (s.setFbuf m).pending = s.pending := rfl
@[simp] theorem State.setFbuf_position (m : Memory) : (s.setFbuf m).position = s.position := rfl
@[simp] theorem State.setFbuf_observed (m : Memory) : (s.setFbuf m).observed = s.observed := rfl

/-! #### setBuflen -/

@[simp] theorem State.setBuflen_fbuf (n : BitVec 16) : (s.setBuflen n).fbuf = s.fbuf := rfl
@[simp] theorem State.setBuflen_buflen (n : BitVec 16) : (s.setBuflen n).buflen = n := rfl
@[simp] theorem State.setBuflen_crc (n : BitVec 16) : (s.setBuflen n).crc = s.crc := rfl
@[simp] theorem State.setBuflen_res (n : BitVec 16) : (s.setBuflen n).res = s.res := rfl
@[simp] theorem State.setBuflen_fclass (n : BitVec 16) : (s.setBuflen n).fclass = s.fclass := rfl
@[simp] theorem State.setBuflen_status (n : BitVec 16) : (s.setBuflen n).status = s.status := rfl
@[simp] theorem State.setBuflen_record (n : BitVec 16) : (s.setBuflen n).record = s.record := rfl
@[simp] theorem State.setBuflen_pending (n : BitVec 16) : (s.setBuflen n).pending = s.pending := rfl
@[simp] theorem State.setBuflen_position (n : BitVec 16) : (s.setBuflen n).position = s.position := rfl
@[simp] theorem State.setBuflen_observed (n : BitVec 16) : (s.setBuflen n).observed = s.observed := rfl

/-! #### setCrc -/

@[simp] theorem State.setCrc_fbuf (c : Byte) : (s.setCrc c).fbuf = s.fbuf := rfl
@[simp] theorem State.setCrc_buflen (c : Byte) : (s.setCrc c).buflen = s.buflen := rfl
@[simp] theorem State.setCrc_crc (c : Byte) : (s.setCrc c).crc = c := rfl
@[simp] theorem State.setCrc_res (c : Byte) : (s.setCrc c).res = s.res := rfl
@[simp] theorem State.setCrc_fclass (c : Byte) : (s.setCrc c).fclass = s.fclass := rfl
@[simp] theorem State.setCrc_status (c : Byte) : (s.setCrc c).status = s.status := rfl
@[simp] theorem State.setCrc_record (c : Byte) : (s.setCrc c).record = s.record := rfl
@[simp] theorem State.setCrc_pending (c : Byte) : (s.setCrc c).pending = s.pending := rfl
@[simp] theorem State.setCrc_position (c : Byte) : (s.setCrc c).position = s.position := rfl
@[simp] theorem State.setCrc_observed (c : Byte) : (s.setCrc c).observed = s.observed := rfl

/-! #### setRes -/

@[simp] theorem State.setRes_fbuf (v : Slot) : (s.setRes v).fbuf = s.fbuf := rfl
@[simp] theorem State.setRes_buflen (v : Slot) : (s.setRes v).buflen = s.buflen := rfl
@[simp] theorem State.setRes_crc (v : Slot) : (s.setRes v).crc = s.crc := rfl
@[simp] theorem State.setRes_res (v : Slot) : (s.setRes v).res = v := rfl
@[simp] theorem State.setRes_fclass (v : Slot) : (s.setRes v).fclass = s.fclass := rfl
@[simp] theorem State.setRes_status (v : Slot) : (s.setRes v).status = s.status := rfl
@[simp] theorem State.setRes_record (v : Slot) : (s.setRes v).record = s.record := rfl
@[simp] theorem State.setRes_pending (v : Slot) : (s.setRes v).pending = s.pending := rfl
@[simp] theorem State.setRes_position (v : Slot) : (s.setRes v).position = s.position := rfl
@[simp] theorem State.setRes_observed (v : Slot) : (s.setRes v).observed = s.observed := rfl

/-! #### setFclass -/

@[simp] theorem State.setFclass_fbuf (k : BitVec 4) : (s.setFclass k).fbuf = s.fbuf := rfl
@[simp] theorem State.setFclass_buflen (k : BitVec 4) : (s.setFclass k).buflen = s.buflen := rfl
@[simp] theorem State.setFclass_crc (k : BitVec 4) : (s.setFclass k).crc = s.crc := rfl
@[simp] theorem State.setFclass_res (k : BitVec 4) : (s.setFclass k).res = s.res := rfl
@[simp] theorem State.setFclass_fclass (k : BitVec 4) : (s.setFclass k).fclass = k := rfl
@[simp] theorem State.setFclass_status (k : BitVec 4) : (s.setFclass k).status = s.status := rfl
@[simp] theorem State.setFclass_record (k : BitVec 4) : (s.setFclass k).record = s.record := rfl
@[simp] theorem State.setFclass_pending (k : BitVec 4) : (s.setFclass k).pending = s.pending := rfl
@[simp] theorem State.setFclass_position (k : BitVec 4) : (s.setFclass k).position = s.position := rfl
@[simp] theorem State.setFclass_observed (k : BitVec 4) : (s.setFclass k).observed = s.observed := rfl

/-! #### setStatus -/

@[simp] theorem State.setStatus_fbuf (f : Status) : (s.setStatus f).fbuf = s.fbuf := rfl
@[simp] theorem State.setStatus_buflen (f : Status) : (s.setStatus f).buflen = s.buflen := rfl
@[simp] theorem State.setStatus_crc (f : Status) : (s.setStatus f).crc = s.crc := rfl
@[simp] theorem State.setStatus_res (f : Status) : (s.setStatus f).res = s.res := rfl
@[simp] theorem State.setStatus_fclass (f : Status) : (s.setStatus f).fclass = s.fclass := rfl
@[simp] theorem State.setStatus_status (f : Status) : (s.setStatus f).status = f := rfl
@[simp] theorem State.setStatus_record (f : Status) : (s.setStatus f).record = s.record := rfl
@[simp] theorem State.setStatus_pending (f : Status) : (s.setStatus f).pending = s.pending := rfl
@[simp] theorem State.setStatus_position (f : Status) : (s.setStatus f).position = s.position := rfl
@[simp] theorem State.setStatus_observed (f : Status) : (s.setStatus f).observed = s.observed := rfl

/-! #### setRecord -/

@[simp] theorem State.setRecord_fbuf (r : Vector Slot 18) : (s.setRecord r).fbuf = s.fbuf := rfl
@[simp] theorem State.setRecord_buflen (r : Vector Slot 18) : (s.setRecord r).buflen = s.buflen := rfl
@[simp] theorem State.setRecord_crc (r : Vector Slot 18) : (s.setRecord r).crc = s.crc := rfl
@[simp] theorem State.setRecord_res (r : Vector Slot 18) : (s.setRecord r).res = s.res := rfl
@[simp] theorem State.setRecord_fclass (r : Vector Slot 18) : (s.setRecord r).fclass = s.fclass := rfl
@[simp] theorem State.setRecord_status (r : Vector Slot 18) : (s.setRecord r).status = s.status := rfl
@[simp] theorem State.setRecord_record (r : Vector Slot 18) : (s.setRecord r).record = r := rfl
@[simp] theorem State.setRecord_pending (r : Vector Slot 18) : (s.setRecord r).pending = s.pending := rfl
@[simp] theorem State.setRecord_position (r : Vector Slot 18) : (s.setRecord r).position = s.position := rfl
@[simp] theorem State.setRecord_observed (r : Vector Slot 18) : (s.setRecord r).observed = s.observed := rfl

/-! #### setPending -/

@[simp] theorem State.setPending_fbuf (p : List HostItem) : (s.setPending p).fbuf = s.fbuf := rfl
@[simp] theorem State.setPending_buflen (p : List HostItem) : (s.setPending p).buflen = s.buflen := rfl
@[simp] theorem State.setPending_crc (p : List HostItem) : (s.setPending p).crc = s.crc := rfl
@[simp] theorem State.setPending_res (p : List HostItem) : (s.setPending p).res = s.res := rfl
@[simp] theorem State.setPending_fclass (p : List HostItem) : (s.setPending p).fclass = s.fclass := rfl
@[simp] theorem State.setPending_status (p : List HostItem) : (s.setPending p).status = s.status := rfl
@[simp] theorem State.setPending_record (p : List HostItem) : (s.setPending p).record = s.record := rfl
@[simp] theorem State.setPending_pending (p : List HostItem) : (s.setPending p).pending = p := rfl
@[simp] theorem State.setPending_position (p : List HostItem) : (s.setPending p).position = s.position := rfl
@[simp] theorem State.setPending_observed (p : List HostItem) : (s.setPending p).observed = s.observed := rfl

/-! #### accept and returnWord -/

@[simp] theorem State.accept_fbuf (rest : List HostItem) : (s.accept rest).fbuf = s.fbuf := rfl
@[simp] theorem State.accept_buflen (rest : List HostItem) : (s.accept rest).buflen = s.buflen := rfl
@[simp] theorem State.accept_crc (rest : List HostItem) : (s.accept rest).crc = s.crc := rfl
@[simp] theorem State.accept_res (rest : List HostItem) : (s.accept rest).res = s.res := rfl
@[simp] theorem State.accept_fclass (rest : List HostItem) : (s.accept rest).fclass = s.fclass := rfl
@[simp] theorem State.accept_status (rest : List HostItem) : (s.accept rest).status = s.status := rfl
@[simp] theorem State.accept_record (rest : List HostItem) : (s.accept rest).record = s.record := rfl
@[simp] theorem State.accept_pending (rest : List HostItem) : (s.accept rest).pending = rest := rfl
@[simp] theorem State.accept_position (rest : List HostItem) : (s.accept rest).position = s.position + 1 := rfl
@[simp] theorem State.accept_observed (rest : List HostItem) : (s.accept rest).observed = s.observed := rfl

@[simp] theorem State.returnWord_fbuf (w : Word) (rest : List HostItem) :
    (s.returnWord w rest).fbuf = s.fbuf := rfl
@[simp] theorem State.returnWord_buflen (w : Word) (rest : List HostItem) :
    (s.returnWord w rest).buflen = s.buflen := rfl
@[simp] theorem State.returnWord_crc (w : Word) (rest : List HostItem) :
    (s.returnWord w rest).crc = s.crc := rfl
@[simp] theorem State.returnWord_res (w : Word) (rest : List HostItem) :
    (s.returnWord w rest).res = s.res := rfl
@[simp] theorem State.returnWord_fclass (w : Word) (rest : List HostItem) :
    (s.returnWord w rest).fclass = s.fclass := rfl
@[simp] theorem State.returnWord_status (w : Word) (rest : List HostItem) :
    (s.returnWord w rest).status = s.status := rfl
@[simp] theorem State.returnWord_record (w : Word) (rest : List HostItem) :
    (s.returnWord w rest).record = s.record := rfl
@[simp] theorem State.returnWord_pending (w : Word) (rest : List HostItem) :
    (s.returnWord w rest).pending = rest := rfl
@[simp] theorem State.returnWord_position (w : Word) (rest : List HostItem) :
    (s.returnWord w rest).position = s.position := rfl
@[simp] theorem State.returnWord_observed (w : Word) (rest : List HostItem) :
    (s.returnWord w rest).observed = s.observed ++ [w] := rfl

/-! #### cmdError, clearRegisters, resetEvent -/

@[simp] theorem State.cmdError_fbuf (c : CmdError) : (s.cmdError c).fbuf = s.fbuf := rfl
@[simp] theorem State.cmdError_buflen (c : CmdError) : (s.cmdError c).buflen = s.buflen := rfl
@[simp] theorem State.cmdError_crc (c : CmdError) : (s.cmdError c).crc = s.crc := rfl
@[simp] theorem State.cmdError_res (c : CmdError) : (s.cmdError c).res = s.res := rfl
@[simp] theorem State.cmdError_fclass (c : CmdError) : (s.cmdError c).fclass = s.fclass := rfl
@[simp] theorem State.cmdError_status (c : CmdError) : (s.cmdError c).status = s.status.raise c := rfl
@[simp] theorem State.cmdError_record (c : CmdError) : (s.cmdError c).record = s.record := rfl
@[simp] theorem State.cmdError_pending (c : CmdError) : (s.cmdError c).pending = s.pending := rfl
@[simp] theorem State.cmdError_position (c : CmdError) : (s.cmdError c).position = s.position := rfl
@[simp] theorem State.cmdError_observed (c : CmdError) : (s.cmdError c).observed = s.observed := rfl

@[simp] theorem State.clearRegisters_fbuf : s.clearRegisters.fbuf = s.fbuf := rfl
@[simp] theorem State.clearRegisters_buflen : s.clearRegisters.buflen = 0#16 := rfl
@[simp] theorem State.clearRegisters_crc : s.clearRegisters.crc = 0x00#8 := rfl
@[simp] theorem State.clearRegisters_res : s.clearRegisters.res = 0#64 := rfl
@[simp] theorem State.clearRegisters_fclass : s.clearRegisters.fclass = 0#4 := rfl
@[simp] theorem State.clearRegisters_status : s.clearRegisters.status = Status.zero := rfl
@[simp] theorem State.clearRegisters_record : s.clearRegisters.record = s.record := rfl
@[simp] theorem State.clearRegisters_pending : s.clearRegisters.pending = s.pending := rfl
@[simp] theorem State.clearRegisters_position : s.clearRegisters.position = s.position := rfl
@[simp] theorem State.clearRegisters_observed : s.clearRegisters.observed = s.observed := rfl

@[simp] theorem State.resetEvent_fbuf : s.resetEvent.fbuf = s.fbuf := rfl
@[simp] theorem State.resetEvent_buflen : s.resetEvent.buflen = 0#16 := rfl
@[simp] theorem State.resetEvent_crc : s.resetEvent.crc = 0x00#8 := rfl
@[simp] theorem State.resetEvent_res : s.resetEvent.res = 0#64 := rfl
@[simp] theorem State.resetEvent_fclass : s.resetEvent.fclass = 0#4 := rfl
@[simp] theorem State.resetEvent_status : s.resetEvent.status = Status.zero := rfl
@[simp] theorem State.resetEvent_record : s.resetEvent.record = zeroRecord := rfl
@[simp] theorem State.resetEvent_pending : s.resetEvent.pending = s.pending := rfl
@[simp] theorem State.resetEvent_position : s.resetEvent.position = s.position := rfl
@[simp] theorem State.resetEvent_observed : s.resetEvent.observed = s.observed := rfl

/-! #### STATUS -/

variable (f : Status)

@[simp] theorem Status.setValid_valid (v : Bool) : (f.setValid v).valid = v := rfl
@[simp] theorem Status.setValid_mtch (v : Bool) : (f.setValid v).mtch = f.mtch := rfl
@[simp] theorem Status.setValid_err (v : Bool) : (f.setValid v).err = f.err := rfl
@[simp] theorem Status.setValid_errcode (v : Bool) : (f.setValid v).errcode = f.errcode := rfl

@[simp] theorem Status.setMatch_valid (m : Bool) : (f.setMatch m).valid = f.valid := rfl
@[simp] theorem Status.setMatch_mtch (m : Bool) : (f.setMatch m).mtch = m := rfl
@[simp] theorem Status.setMatch_err (m : Bool) : (f.setMatch m).err = f.err := rfl
@[simp] theorem Status.setMatch_errcode (m : Bool) : (f.setMatch m).errcode = f.errcode := rfl

@[simp] theorem Status.raise_valid (c : CmdError) : (f.raise c).valid = f.valid := rfl
@[simp] theorem Status.raise_mtch (c : CmdError) : (f.raise c).mtch = f.mtch := rfl
@[simp] theorem Status.raise_err (c : CmdError) : (f.raise c).err = true := rfl
@[simp] theorem Status.raise_errcode (c : CmdError) : (f.raise c).errcode = if f.err then f.errcode else c.code := rfl

/-! #### Reading a byte looks at FBUF alone -/

/-- Two states with the same FBUF contents read the same bytes. -/
theorem State.fbufByte_congr {s t : State} (h : t.fbuf = s.fbuf) (i : Nat) :
    t.fbufByte i = s.fbufByte i := by
  simp only [State.fbufByte, h]

/-- Two states with the same REC read the same slots. -/
theorem State.recSlot_congr {s t : State} (h : t.record = s.record) (k : Nat) :
    t.recSlot k = s.recSlot k := by
  simp only [State.recSlot, h]

/-! #### Every operation that does not write FBUF leaves every byte -/

@[simp] theorem State.fbufByte_setBuflen (n : BitVec 16) (i : Nat) : (s.setBuflen n).fbufByte i = s.fbufByte i := rfl
@[simp] theorem State.fbufByte_setCrc (c : Byte) (i : Nat) : (s.setCrc c).fbufByte i = s.fbufByte i := rfl
@[simp] theorem State.fbufByte_setRes (v : Slot) (i : Nat) : (s.setRes v).fbufByte i = s.fbufByte i := rfl
@[simp] theorem State.fbufByte_setFclass (k : BitVec 4) (i : Nat) : (s.setFclass k).fbufByte i = s.fbufByte i := rfl
@[simp] theorem State.fbufByte_setStatus (f : Status) (i : Nat) : (s.setStatus f).fbufByte i = s.fbufByte i := rfl
@[simp] theorem State.fbufByte_setRecord (r : Vector Slot 18) (i : Nat) : (s.setRecord r).fbufByte i = s.fbufByte i := rfl
@[simp] theorem State.fbufByte_setPending (p : List HostItem) (i : Nat) : (s.setPending p).fbufByte i = s.fbufByte i := rfl
@[simp] theorem State.fbufByte_accept (rest : List HostItem) (i : Nat) : (s.accept rest).fbufByte i = s.fbufByte i := rfl
@[simp] theorem State.fbufByte_cmdError (c : CmdError) (i : Nat) : (s.cmdError c).fbufByte i = s.fbufByte i := rfl
@[simp] theorem State.fbufByte_returnWord (w : Word) (rest : List HostItem) (i : Nat) : (s.returnWord w rest).fbufByte i = s.fbufByte i := rfl
@[simp] theorem State.fbufByte_clearRegisters (i : Nat) : (s.clearRegisters).fbufByte i = s.fbufByte i := rfl
@[simp] theorem State.fbufByte_resetEvent (i : Nat) : (s.resetEvent).fbufByte i = s.fbufByte i := rfl

end Sys2Proof.Machine
end

