-- ==== Sys2Proof/Laws/Memory.lean ====
section
/-! SUPPORT. FBUF as data: a byte read after a write, the canonical form, and the little-endian read. -/

namespace Sys2Proof.Machine

/-- A byte is read back where it was written. -/
@[simp] theorem Memory.get?_write_same (m : Memory) (a : Nat) (b : Byte) :
    (m.write a b).get? a = some b := by
  induction m with
  | nil => simp [Memory.write, Memory.get?]
  | cons c rest ih =>
    simp only [Memory.write]
    split
    · simp [Memory.get?]
    · split
      · simp [Memory.get?]
      · rename_i h1 h2
        simp [Memory.get?, Ne.symm h2, ih]

/-- A write leaves every other offset alone. -/
theorem Memory.get?_write_other (m : Memory) {a i : Nat} (b : Byte) (h : i ≠ a) :
    (m.write a b).get? i = m.get? i := by
  induction m with
  | nil => simp [Memory.write, Memory.get?, Ne.symm h]
  | cons c rest ih =>
    simp only [Memory.write]
    split
    · simp [Memory.get?, Ne.symm h]
    · split
      · rename_i h1 h2
        simp [Memory.get?, ← h2, Ne.symm h]
      · simp only [Memory.get?, ih]

/-- A write at or above the lower end keeps the offsets rising from it. -/
theorem Memory.risingFrom_write {m : Memory} {low a : Nat} (b : Byte) (hm : m.risingFrom low = true)
    (hlow : low ≤ a) (ha : a < 64) : (m.write a b).risingFrom low = true := by
  induction m generalizing low with
  | nil => simp [Memory.write, Memory.risingFrom, hlow, ha]
  | cons c rest ih =>
    simp only [Memory.risingFrom, Bool.and_eq_true, decide_eq_true_eq] at hm
    obtain ⟨⟨hc, hc64⟩, hrest⟩ := hm
    simp only [Memory.write]
    split
    · rename_i h
      have : a + 1 ≤ c.1 := h
      simp [Memory.risingFrom, hlow, ha, hc64, hrest, this]
    · split
      · rename_i h1 h2
        subst h2
        simp [Memory.risingFrom, hlow, ha, hrest]
      · rename_i h1 h2
        have : c.1 + 1 ≤ a := by omega
        simp [Memory.risingFrom, hc, hc64, ih hrest this]

/-- The canonical form survives a write inside the 64-byte space. -/
theorem Memory.wf_write {m : Memory} {a : Nat} (b : Byte) (hm : m.wf = true) (ha : a < 64) :
    (m.write a b).wf = true :=
  Memory.risingFrom_write b hm (Nat.zero_le a) ha

/-- Reset's FBUF is in the canonical form: nothing has been written. -/
theorem Memory.wf_reset : State.reset.fbuf.wf = true := rfl

/-- In a canonical FBUF nothing is listed below the lower end. -/
theorem Memory.get?_below {m : Memory} {low i : Nat} (hm : m.risingFrom low = true) (hi : i < low) :
    m.get? i = none := by
  induction m generalizing low with
  | nil => rfl
  | cons c rest ih =>
    simp only [Memory.risingFrom, Bool.and_eq_true, decide_eq_true_eq] at hm
    have hne : c.1 ≠ i := by omega
    simp [Memory.get?, hne, ih hm.2 (by omega)]

/-- Two canonical contents that list the same bytes are the same data. -/
theorem Memory.ext_of_wf {m n : Memory} {low : Nat} (hm : m.risingFrom low = true)
    (hn : n.risingFrom low = true) (h : ∀ i, m.get? i = n.get? i) : m = n := by
  induction m generalizing n low with
  | nil =>
    cases n with
    | nil => rfl
    | cons d rest => simpa [Memory.get?] using h d.1
  | cons c rest ih =>
    cases n with
    | nil => simpa [Memory.get?] using h c.1
    | cons d rest' =>
      simp only [Memory.risingFrom, Bool.and_eq_true, decide_eq_true_eq] at hm hn
      have hcd : c.1 = d.1 := by
        rcases Nat.lt_trichotomy c.1 d.1 with hlt | heq | hgt
        · have hnone := Memory.get?_below (i := c.1) hn.2 (by omega)
          have := h c.1
          simp [Memory.get?, Nat.ne_of_gt hlt, hnone] at this
        · exact heq
        · have hnone := Memory.get?_below (i := d.1) hm.2 (by omega)
          have := h d.1
          simp [Memory.get?, Nat.ne_of_gt hgt, hnone] at this
      have hv : c.2 = d.2 := by simpa [Memory.get?, hcd] using h c.1
      have hrest : rest = rest' := by
        refine ih hm.2 (hcd ▸ hn.2) fun i => ?_
        rcases Nat.lt_or_ge i (c.1 + 1) with hi | hi
        · rw [Memory.get?_below hm.2 hi, Memory.get?_below hn.2 (hcd ▸ hi)]
        · have := h i
          rwa [Memory.get?, Memory.get?, if_neg (by omega), if_neg (by omega)] at this
      rw [Prod.ext hcd hv, hrest]

/-! ### Bytes of a state -/

/-- The bytes fed to a CRC, one by one. -/
@[simp] theorem State.fbufBytes_length (s : State) (off n : Nat) : (s.fbufBytes off n).length = n := by
  induction n generalizing off with
  | zero => rfl
  | succ n ih => simp [State.fbufBytes, ih]

/-- Byte `i` of a run of bytes is `FBUF[off + i]`. -/
theorem State.fbufBytes_getElem (s : State) (off n i : Nat) (h : i < (s.fbufBytes off n).length) :
    (s.fbufBytes off n)[i] = s.fbufByte (off + i) := by
  induction n generalizing off i with
  | zero => simp [State.fbufBytes] at h
  | succ n ih =>
    cases i with
    | zero => rfl
    | succ i => simp only [State.fbufBytes, List.getElem_cons_succ, ih]; congr 1; omega

/-- A run of bytes splits where a count is split. -/
theorem State.fbufBytes_append (s : State) (off n m : Nat) :
    s.fbufBytes off (n + m) = s.fbufBytes off n ++ s.fbufBytes (off + n) m := by
  induction n generalizing off with
  | zero => simp [State.fbufBytes]
  | succ n ih =>
    rw [Nat.add_right_comm, State.fbufBytes, State.fbufBytes, ih, Nat.add_right_comm off 1 n]
    rfl

/-- States that agree on the bytes of a range feed the same bytes. -/
theorem State.fbufBytes_congr {s t : State} {off n : Nat}
    (h : ∀ i, i < n → t.fbufByte (off + i) = s.fbufByte (off + i)) :
    t.fbufBytes off n = s.fbufBytes off n := by
  induction n generalizing off with
  | zero => rfl
  | succ n ih =>
    have h0 : t.fbufByte off = s.fbufByte off := h 0 (Nat.succ_pos n)
    rw [State.fbufBytes, State.fbufBytes, h0, ih fun i hi => by
      have := h (i + 1) (by omega)
      rwa [← Nat.add_assoc, Nat.add_right_comm] at this]

/-- States that agree on the bytes of a range read the same little-endian pattern there. -/
theorem State.memRead_congr {s t : State} {off n : Nat}
    (h : ∀ i, i < n → t.fbufByte (off + i) = s.fbufByte (off + i)) :
    t.memRead off n = s.memRead off n := by
  induction n generalizing off with
  | zero => rfl
  | succ n ih =>
    have h0 : t.fbufByte off = s.fbufByte off := h 0 (Nat.succ_pos n)
    have hr : t.memRead (off + 1) n = s.memRead (off + 1) n := ih fun i hi => by
      have := h (i + 1) (by omega)
      rwa [← Nat.add_assoc, Nat.add_right_comm] at this
    show t.memRead (off + 1) n ++ t.fbufByte off = s.memRead (off + 1) n ++ s.fbufByte off
    rw [h0, hr]

/-- One more byte above: the value of a little-endian read, byte by byte (rule R37). -/
theorem State.memRead_succ_toNat (s : State) (off n : Nat) :
    (s.memRead off (n + 1)).toNat = (s.fbufByte off).toNat + 256 * (s.memRead (off + 1) n).toNat := by
  show (s.memRead (off + 1) n ++ s.fbufByte off).toNat = _
  rw [BitVec.toNat_append, ← Nat.shiftLeft_add_eq_or_of_lt (s.fbufByte off).isLt, Nat.shiftLeft_eq]
  omega

end Sys2Proof.Machine
end

