-- ==== Sys2Proof/Laws/Ops.lean ====
section
/-! SUPPORT. What each shared operation and the step can do, said once. -/

namespace Sys2Proof.Machine

/-- In range, a checked command ends in its own effect. -/
theorem rangeChecked_in {off n : Nat} (h : off + n ≤ 64) (s done : State) :
    rangeChecked off n s done = .next done := if_pos h

/-- Out of range, a checked command is a RANGE command error. -/
theorem rangeChecked_out {off n : Nat} (h : 64 < off + n) (s done : State) :
    rangeChecked off n s done = .next (s.cmdError .range) := if_neg (Nat.not_le.mpr h)

/-- Everything a checked command can answer. -/
theorem rangeChecked_cases {off n : Nat} {s done t : State} (h : rangeChecked off n s done = .next t) :
    (off + n ≤ 64 ∧ t = done) ∨ (64 < off + n ∧ t = s.cmdError .range) := by
  rcases Nat.lt_or_ge 64 (off + n) with hgt | hle
  · rw [rangeChecked_out hgt] at h
    exact .inr ⟨hgt, (Host.Outcome.next.inj h).symm⟩
  · rw [rangeChecked_in hle] at h
    exact .inl ⟨hle, (Host.Outcome.next.inj h).symm⟩

/-- PUSH with room stores at BUFLEN. -/
theorem pushAddress_room {s : State} (h : s.buflen.toNat < 64) :
    s.pushAddress = some s.buflen.toNat := if_pos h

/-- PUSH without room stores nowhere. -/
theorem pushAddress_full {s : State} (h : 64 ≤ s.buflen.toNat) : s.pushAddress = none :=
  if_neg (Nat.not_lt.mpr h)

/-- Everything the store of a PUSH can do. -/
theorem storePushed_cases (s : State) (b : Byte) :
    (s.buflen.toNat < 64 ∧ s.storePushed b = s.setFbuf (s.fbuf.write s.buflen.toNat b)) ∨
      (64 ≤ s.buflen.toNat ∧ s.storePushed b = s) := by
  rcases Nat.lt_or_ge s.buflen.toNat 64 with h | h
  · exact .inl ⟨h, by simp only [State.storePushed, pushAddress_room h]⟩
  · exact .inr ⟨h, by simp only [State.storePushed, pushAddress_full h]⟩

/-- Everything the count of a PUSH can do: it saturates at 0xFFFF. -/
theorem countPushed_cases (s : State) :
    (s.buflen = 0xFFFF#16 ∧ s.countPushed = s) ∨
      (s.buflen ≠ 0xFFFF#16 ∧ s.countPushed = s.setBuflen (s.buflen + 1#16)) := by
  by_cases h : s.buflen = 0xFFFF#16
  · exact .inl ⟨h, if_pos h⟩
  · exact .inr ⟨h, if_neg h⟩

/-- BUFLEN after a count, as a number. -/
theorem countPushed_toNat (s : State) :
    s.countPushed.buflen.toNat = min (s.buflen.toNat + 1) 0xFFFF := by
  rcases countPushed_cases s with ⟨h, e⟩ | ⟨h, e⟩
  · simp [e, h]
  · have hne : s.buflen.toNat ≠ 65535 := fun hc => h (BitVec.eq_of_toNat_eq (by simpa using hc))
    have := s.buflen.isLt
    rw [e, State.setBuflen_buflen, BitVec.toNat_add]
    simp
    omega

/-! ### PUSH, field by field -/

@[simp] theorem storePushed_buflen (s : State) (b : Byte) : (s.storePushed b).buflen = s.buflen := by
  unfold State.storePushed
  split <;> rfl

@[simp] theorem storePushed_crc (s : State) (b : Byte) : (s.storePushed b).crc = s.crc := by
  unfold State.storePushed
  split <;> rfl

@[simp] theorem storePushed_res (s : State) (b : Byte) : (s.storePushed b).res = s.res := by
  unfold State.storePushed
  split <;> rfl

@[simp] theorem storePushed_fclass (s : State) (b : Byte) : (s.storePushed b).fclass = s.fclass := by
  unfold State.storePushed
  split <;> rfl

@[simp] theorem storePushed_status (s : State) (b : Byte) : (s.storePushed b).status = s.status := by
  unfold State.storePushed
  split <;> rfl

@[simp] theorem storePushed_record (s : State) (b : Byte) : (s.storePushed b).record = s.record := by
  unfold State.storePushed
  split <;> rfl

@[simp] theorem storePushed_pending (s : State) (b : Byte) : (s.storePushed b).pending = s.pending := by
  unfold State.storePushed
  split <;> rfl

@[simp] theorem storePushed_position (s : State) (b : Byte) : (s.storePushed b).position = s.position := by
  unfold State.storePushed
  split <;> rfl

@[simp] theorem storePushed_observed (s : State) (b : Byte) : (s.storePushed b).observed = s.observed := by
  unfold State.storePushed
  split <;> rfl

@[simp] theorem countPushed_fbuf (s : State) : s.countPushed.fbuf = s.fbuf := by
  unfold State.countPushed
  split <;> rfl

@[simp] theorem countPushed_crc (s : State) : s.countPushed.crc = s.crc := by
  unfold State.countPushed
  split <;> rfl

@[simp] theorem countPushed_res (s : State) : s.countPushed.res = s.res := by
  unfold State.countPushed
  split <;> rfl

@[simp] theorem countPushed_fclass (s : State) : s.countPushed.fclass = s.fclass := by
  unfold State.countPushed
  split <;> rfl

@[simp] theorem countPushed_status (s : State) : s.countPushed.status = s.status := by
  unfold State.countPushed
  split <;> rfl

@[simp] theorem countPushed_record (s : State) : s.countPushed.record = s.record := by
  unfold State.countPushed
  split <;> rfl

@[simp] theorem countPushed_pending (s : State) : s.countPushed.pending = s.pending := by
  unfold State.countPushed
  split <;> rfl

@[simp] theorem countPushed_position (s : State) : s.countPushed.position = s.position := by
  unfold State.countPushed
  split <;> rfl

@[simp] theorem countPushed_observed (s : State) : s.countPushed.observed = s.observed := by
  unfold State.countPushed
  split <;> rfl

/-- The byte a PUSH stores is the one at BUFLEN, while that is below 64; every other byte stays. -/
theorem fbufByte_storePushed (s : State) (b : Byte) (i : Nat) :
    (s.storePushed b).fbufByte i =
      if s.buflen.toNat < 64 ∧ i = s.buflen.toNat then b else s.fbufByte i := by
  rcases storePushed_cases s b with ⟨h, e⟩ | ⟨h, e⟩
  · by_cases hi : i = s.buflen.toNat
    · simp [e, h, hi, State.fbufByte]
    · simp [e, hi, State.fbufByte, Memory.get?_write_other]
  · simp [e, Nat.not_lt.mpr h]

/-- Counting a PUSH touches no byte. -/
@[simp] theorem fbufByte_countPushed (s : State) (i : Nat) :
    s.countPushed.fbufByte i = s.fbufByte i :=
  State.fbufByte_congr (countPushed_fbuf s) i

/-- Everything DECODE can do. -/
theorem execDecode_cases {s t : State} (h : execDecode s = .next t) :
    (rejectCause s = none ∧ t = acceptFrame s) ∨ (rejectCause s ≠ none ∧ t = rejectFrame s) := by
  unfold execDecode at h
  split at h
  · rename_i e
    exact .inl ⟨e, (Host.Outcome.next.inj h).symm⟩
  · rename_i c e
    exact .inr ⟨by simp [e], (Host.Outcome.next.inj h).symm⟩

/-- DECODE accepts exactly when none of the four checks rejects. -/
theorem rejectCause_eq_none_iff (s : State) :
    rejectCause s = none ↔ s.buflen.toNat = 64 ∧ (s.fbufByte 3).toNat = 1 ∧
      (s.fbufByte 4).toNat = 56 ∧ frameCrc s = s.fbufByte 61 := by
  unfold rejectCause
  split_ifs <;> simp_all

/-- A DECODE that no check rejects accepts. -/
theorem exec_decode_accept {s : State} (h : rejectCause s = none) :
    exec .decode s = .next (acceptFrame s) := by
  show execDecode s = _
  unfold execDecode
  rw [h]

/-- A DECODE that some check rejects writes VALID = 0. -/
theorem exec_decode_reject {s : State} {c : RejectCause} (h : rejectCause s = some c) :
    exec .decode s = .next (rejectFrame s) := by
  show execDecode s = _
  unfold execDecode
  rw [h]

/-- Every command answers a next state. -/
theorem exec_next (i : Instr) (s : State) : ∃ t, exec i s = .next t := by
  cases i with
  | decode =>
    show ∃ t, execDecode s = .next t
    unfold execDecode
    split <;> exact ⟨_, rfl⟩
  | crcrange off cnt => exact (ite_next _ _ _)
  | crcchk off => exact (ite_next _ _ _)
  | ldu8 off => exact (ite_next _ _ _)
  | lds16 off => exact (ite_next _ _ _)
  | ldu64 off => exact (ite_next _ _ _)
  | ldf32 off => exact (ite_next _ _ _)
  | _ => exact ⟨_, rfl⟩
where
  ite_next (p : Prop) [Decidable p] (a b : State) :
      ∃ t : State, (if p then (.next a : Result) else .next b) = .next t := by
    split <;> exact ⟨_, rfl⟩

/-- With nothing to take, a step keeps the state. -/
theorem step_idle {s : State} (h : s.pending = []) : step s = .next s := by
  simp only [step, h]

/-- A step takes the next item of the host's stream. -/
theorem step_item {s : State} {item : HostItem} {rest : List HostItem} (h : s.pending = item :: rest) :
    step s = takeItem item rest s := by
  simp only [step, h]

/-- Everything a step that answers a next state can have done. -/
theorem step_cases {s t : State} (h : step s = .next t) :
    (s.pending = [] ∧ t = s) ∨
      (∃ w i rest, s.pending = .command w :: rest ∧ decode w = .ok i ∧ exec i (s.accept rest) = .next t) ∨
      (∃ w e rest, s.pending = .command w :: rest ∧ decode w = .error e ∧
        t = (s.accept rest).cmdError .illegal) ∨
      (∃ addr rest, s.pending = .read addr :: rest ∧ t = s.returnWord (readWord s addr) rest) ∨
      (∃ rest, s.pending = .reset :: rest ∧ t = s.resetEvent.setPending rest) := by
  cases hp : s.pending with
  | nil =>
    rw [step_idle hp] at h
    exact .inl ⟨rfl, (Host.Outcome.next.inj h).symm⟩
  | cons item rest =>
    rw [step_item hp] at h
    refine .inr ?_
    cases item with
    | command w =>
      simp only [takeItem, runCommand] at h
      cases hd : decode w with
      | ok i => rw [hd] at h; exact .inl ⟨w, i, rest, rfl, hd, h⟩
      | error e =>
        rw [hd] at h
        exact .inr (.inl ⟨w, e, rest, rfl, hd, (Host.Outcome.next.inj h).symm⟩)
    | read addr => exact .inr (.inr (.inl ⟨addr, rest, rfl, (Host.Outcome.next.inj h).symm⟩))
    | reset => exact .inr (.inr (.inr ⟨rest, rfl, (Host.Outcome.next.inj h).symm⟩))
    | secondHost => simp [takeItem] at h

/-- A step at a command word that decodes is the command's meaning at the state that has accepted it. -/
theorem step_command {s : State} {w : Word} {i : Instr} {rest : List HostItem}
    (hp : s.pending = .command w :: rest) (hd : decode w = .ok i) :
    step s = exec i (s.accept rest) := by
  rw [step_item hp]
  simp only [takeItem, runCommand, hd]

/-! ### Runs -/

/-- A run goes on from the state its first step answers. -/
theorem run_succ_next {s t : State} (h : step s = .next t) (n : Nat) :
    Host.Core.run core (n + 1) s = Host.Core.run core n t := by
  have h' : core.step s = .next t := h
  have hrun := Host.Core.run.eq_2 core s n
  rw [h'] at hrun
  exact hrun

/-- A run in two parts. -/
theorem run_add (n m : Nat) (s : State) :
    Host.Core.run core (n + m) s =
      match Host.Core.run core n s with
      | .next t => Host.Core.run core m t
      | .fault r => .fault r
      | .refused r => .refused r := by
  induction n generalizing s with
  | zero => simp [Host.Core.run]
  | succ n ih =>
    rw [Nat.add_right_comm]
    simp only [Host.Core.run]
    cases core.step s with
    | next t => exact ih t
    | fault r => rfl
    | refused r => rfl

end Sys2Proof.Machine
end

