-- ==== Sys2Proof/Laws/PerInstr.lean ====
section
/-! SUPPORT. Facts about a command's word, one lemma per command: its opcode (rule R55) and its reserved
field (rule R52). -/

namespace Sys2Proof.Laws

/-- The OP value of a command (rule R55). -/
def opcodeOf (i : Instr) : BitVec 8 :=
  match i with
  | .nop => 0x00#8
  | .clear => 0x01#8
  | .push _ => 0x02#8
  | .crcinit => 0x10#8
  | .crcbyte _ => 0x11#8
  | .crcrange _ _ => 0x12#8
  | .crcchk _ => 0x13#8
  | .ldu8 _ => 0x20#8
  | .lds16 _ => 0x21#8
  | .ldu64 _ => 0x22#8
  | .ldf32 _ => 0x23#8
  | .decode => 0x30#8

/-- An offset field keeps the opcode below it. -/
theorem opField_classO (op : BitVec 8) (off : Nat) : opField (classO op off) = op := by
  unfold opField classO
  ext i hi
  simp [show i < 32 by omega, hi]

/-- A data byte keeps the opcode below it. -/
theorem opField_classI (op imm : BitVec 8) : opField (classI op imm) = op := by
  unfold opField classI
  ext i hi
  simp [show i < 32 by omega, show i < 16 by omega, hi]

/-- An offset and a count keep the opcode below them. -/
theorem opField_classOC (op : BitVec 8) (off cnt : Nat) : opField (classOC op off cnt) = op := by
  unfold opField classOC
  ext i hi
  simp [show i < 32 by omega, show i < 16 by omega, hi]

/-- A data byte stays below the reserved field. -/
theorem rsvField_classI (op imm : BitVec 8) : rsvField (classI op imm) = 0 := by
  unfold rsvField classI
  ext i hi
  simp [BitVec.getLsbD_of_ge imm (24 + i - 16) (by omega), BitVec.getLsbD_of_ge op (24 + i) (by omega)]

end Sys2Proof.Laws

namespace Sys2Proof.Laws.OpcodeInWord

/-- The word of a command holds the command's OP value. -/
def Statement (i : Instr) : Prop := opField (encode i) = opcodeOf i

theorem nop : Statement .nop := rfl
theorem clear : Statement .clear := rfl
theorem push (imm : Byte) : Statement (.push imm) := opField_classI _ imm
theorem crcinit : Statement .crcinit := rfl
theorem crcbyte (imm : Byte) : Statement (.crcbyte imm) := opField_classI _ imm
theorem crcrange (off cnt : Nat) : Statement (.crcrange off cnt) := opField_classOC _ off cnt
theorem crcchk (off : Nat) : Statement (.crcchk off) := opField_classO _ off
theorem ldu8 (off : Nat) : Statement (.ldu8 off) := opField_classO _ off
theorem lds16 (off : Nat) : Statement (.lds16 off) := opField_classO _ off
theorem ldu64 (off : Nat) : Statement (.ldu64 off) := opField_classO _ off
theorem ldf32 (off : Nat) : Statement (.ldf32 off) := opField_classO _ off
theorem decode : Statement .decode := rfl

end Sys2Proof.Laws.OpcodeInWord
end

