-- ==== Sys2Proof/Tests/Slice0.lean ====
section
/-! SUPPORT. The model's own tests: expected results from 95_test_vectors.md (their ids stand in the
comments) or worked by hand from the rules; and for every statement with hypotheses a witness that meets
them, at the boundary values of its clauses. -/

namespace Sys2Proof.Tests

open Sys2Proof Sys2Proof.Machine Sys2Proof.Claims

set_option Elab.async false

/-! ### Small states -/

/-- FBUF with these bytes written from offset 0 on. -/
def cells (bs : List Byte) : Memory := bs.zipIdx.map fun p => (p.2, p.1)

/-- The state after CLEAR and one PUSH per byte, for at most 64 bytes, from reset. -/
def loaded (bs : List Byte) : State :=
  { State.reset with fbuf := cells bs, buflen := BitVec.ofNat 16 bs.length }

/-- The state with these things still to send. -/
def sending (s : State) (items : List HostItem) : State := { s with pending := items }

/-- The state with another BUFLEN. -/
def counted (s : State) (n : BitVec 16) : State := { s with buflen := n }

/-- The state whose last two frame-buffer bytes are these, the others not written. -/
def lastTwo (a b : Byte) : State := { State.reset with fbuf := [(62, a), (63, b)] }

/-- The next state of an outcome, if it is one. -/
def after (r : Result) : Option State :=
  match r with
  | .next t => some t
  | .fault _ => none
  | .refused _ => none

/-- STATUS as the read port shows it, after one step that takes this command word from reset. -/
def statusAfter (w : Word) : Option Word :=
  (after (step (sending State.reset [.command w]))).map fun t => t.status.word

/-! ### WellFormed: one ill-formed term for each check -/

theorem test_wellFormed_accepts : ([.nop, .clear, .push 0xFF#8, .crcinit, .crcbyte 0xFF#8,
    .crcrange 255 255, .crcchk 255, .ldu8 255, .lds16 255, .ldu64 255, .ldf32 255, .decode] :
    List Instr).all wellFormed = true := by decide

theorem test_wellFormed_refuses : ([.crcrange 256 0, .crcrange 0 256, .crcchk 256, .ldu8 256,
    .lds16 256, .ldu64 256, .ldf32 256] : List Instr).any wellFormed = false := by decide

theorem test_wellFormed_is_WellFormed (i : Instr) : wellFormed i = true ↔ WellFormed i := by
  cases i <;> simp [wellFormed, WellFormed, FitsField]

/-! ### Decoding: a word written out from the encoding of 30_encoding.md for every command -/

theorem test_decode_nop : decode 0b00000000000000000000000000000000#32 = .ok .nop := by decide
theorem test_decode_clear : decode 0b00000000000000000000000000000001#32 = .ok .clear := by decide
theorem test_decode_push : decode 0b00000000101001010000000000000010#32 = .ok (.push 0xA5#8) := by decide
theorem test_decode_crcinit : decode 0b00000000000000000000000000010000#32 = .ok .crcinit := by decide
theorem test_decode_crcbyte :
    decode 0b00000000010110100000000000010001#32 = .ok (.crcbyte 0x5A#8) := by decide
theorem test_decode_crcrange :
    decode 0b00000000000001010011110000010010#32 = .ok (.crcrange 60 5) := by decide
theorem test_decode_crcchk : decode 0b00000000000000000011110100010011#32 = .ok (.crcchk 61) := by decide
theorem test_decode_ldu8 : decode 0b00000000000000000000010100100000#32 = .ok (.ldu8 5) := by decide
theorem test_decode_lds16 : decode 0b00000000000000000011000100100001#32 = .ok (.lds16 49) := by decide
theorem test_decode_ldu64 : decode 0b00000000000000000000011000100010#32 = .ok (.ldu64 6) := by decide
theorem test_decode_ldf32 : decode 0b00000000000000000000111000100011#32 = .ok (.ldf32 14) := by decide
theorem test_decode_decode : decode 0b00000000000000000000000000110000#32 = .ok .decode := by decide

/-- Rule R57, one word of each kind (V-E1, V-E3, V-E4, V-E5), by name. -/
theorem test_decode_refuses :
    decode 0x00000003#32 = .error .unassignedOp ∧ decode 0x01000000#32 = .error .reservedNonzero ∧
      decode 0x00010001#32 = .error .unusedFieldNonzero ∧
      decode 0x00010020#32 = .error .unusedFieldNonzero ∧
      decode 0x00000102#32 = .error .unusedFieldNonzero := by decide

/-- No two rows of the opcode map match one word: their OP values differ and every mask holds them. -/
theorem test_rows_do_not_overlap :
    opcodeTable.Pairwise (fun a b => opField a.pat ≠ opField b.pat) ∧
      opcodeTable.all (fun r => opField r.mask == 0xFF#8) = true := by decide

/-- The opcode-table word of DECODE, and a word wider than a command. -/
theorem test_decodeTableWord : decodeTableWord 32 0x30 = some .decode ∧
    decodeTableWord 32 0x103F = none ∧ decodeTableWord 64 0x30 = none := by decide

/-! ### Buffer and control -/

/-- Rule R70. -/
theorem test_nop : after (exec .nop (loaded [1#8])) = some (loaded [1#8]) := by decide +kernel

/-- Rule R71: registers and STATUS to 0, FBUF and REC kept. -/
theorem test_clear :
    (after (exec .clear { loaded [7#8] with
        crc := 1#8, res := 2#64, fclass := 3#4, status := ⟨true, true, true, 2#2⟩,
        record := Vector.replicate 18 9#64 })).map
      (fun t => (t.buflen, t.crc, t.res, t.fclass, t.status.word)) =
        some (0#16, 0#8, 0#64, 0#4, 0#32) ∧
    (after (exec .clear { loaded [7#8] with record := Vector.replicate 18 9#64 })).map
      (fun t => (t.fbufByte 0, t.recSlot 17)) = some (7#8, 9#64) := by decide +kernel

/-- Rule R72: the first push, and the 64th. -/
theorem test_push_stores :
    (after (exec (.push 0xA5#8) State.reset)).map (fun t => (t.fbufByte 0, t.buflen)) =
      some (0xA5#8, 1#16) ∧
    (after (exec (.push 0xA5#8) (counted (loaded frameF1) 63#16))).map
      (fun t => (t.fbufByte 63, t.buflen)) = some (0xA5#8, 64#16) := by decide +kernel

/-- Rule R72: the 65th push only counts, and the count saturates. -/
theorem test_push_discards :
    (after (exec (.push 0x00#8) (loaded frameF1))).map (fun t => (t.frame, t.buflen)) =
      some (frameF1, 65#16) ∧
    (after (exec (.push 0x00#8) (counted (loaded frameF1) 0xFFFF#16))).map
      (fun t => (t.frame, t.buflen)) = some (frameF1, 0xFFFF#16) := by decide +kernel

/-! ### CRC -/

/-- V-K1. -/
theorem test_crcinit :
    (after (exec .crcinit { State.reset with crc := 0x5F#8 })).map (fun t => t.crc) = some 0x00#8 := by
  decide +kernel

/-- V-C6, V-C7, V-C13 ("123456789"), V-C16, V-C17. -/
theorem test_crc8 : crc8 [0x80#8] = 0x89#8 ∧ crc8 [0xFF#8] = 0xF3#8 ∧
    crc8 [0x31#8, 0x32#8, 0x33#8, 0x34#8, 0x35#8, 0x36#8, 0x37#8, 0x38#8, 0x39#8] = 0xF4#8 ∧
    crc8 [0x01#8, 0x02#8] = 0x1B#8 ∧ crc8 [0x02#8, 0x01#8] = 0x2D#8 := by decide +kernel

/-- V-K7, V-K8. -/
theorem test_crcbyte :
    (after (exec (.crcbyte 0xA5#8) State.reset)).map (fun t => t.crc) = some 0x72#8 ∧
    (after (exec (.crcbyte 0x5A#8) { State.reset with crc := 0x72#8 })).map (fun t => t.crc) =
      some 0xD8#8 := by decide +kernel

/-- V-K2, V-K5, V-K6, and the split of 2.1: bytes 30..60 from 0x32. -/
theorem test_crcrange :
    (after (exec (.crcrange 0 61) (loaded frameF1))).map (fun t => t.crc) = some 0x27#8 ∧
    (after (exec (.crcrange 0 62) (loaded frameF1))).map (fun t => t.crc) = some 0x00#8 ∧
    (after (exec (.crcrange 64 0) { loaded frameF1 with crc := 0x5A#8 })).map
      (fun t => (t.crc, t.status.word)) = some (0x5A#8, 0#32) ∧
    (after (exec (.crcrange 30 31) { loaded frameF1 with crc := 0x32#8 })).map (fun t => t.crc) =
      some 0x27#8 := by decide +kernel

/-- V-E12, V-E13: out of range, nothing of CRC changes. -/
theorem test_crcrange_range :
    (after (exec (.crcrange 60 5) { loaded frameF1 with crc := 0x5A#8 })).map
      (fun t => (t.crc, t.status.word)) = some (0x5A#8, 0x24#32) ∧
    (after (exec (.crcrange 0 65) (loaded frameF1))).map (fun t => t.status.word) = some 0x24#32 := by
  decide +kernel

/-- V-K3, V-K4, V-E11. -/
theorem test_crcchk :
    (after (exec (.crcchk 61) { loaded frameF1 with crc := 0x27#8 })).map
      (fun t => (t.crc, t.status.word)) = some (0x27#8, 2#32) ∧
    (after (exec (.crcchk 60) { loaded frameF1 with crc := 0x27#8, status := ⟨false, true, false, 0#2⟩ })).map
      (fun t => t.status.word) = some 0#32 ∧
    (after (exec (.crcchk 64) { loaded frameF1 with status := ⟨false, true, false, 0#2⟩ })).map
      (fun t => t.status.word) = some 0x26#32 := by decide +kernel

/-! ### Loads -/

/-- V-L13, V-L14 and the example of rule R96. -/
theorem test_ldu8 :
    (after (exec (.ldu8 5) (loaded frameF1))).map (fun t => t.res) = some 0x2A#64 ∧
    (after (exec (.ldu8 61) (loaded frameF1))).map (fun t => t.res) = some 0x27#64 ∧
    (after (exec (.ldu8 63) (loaded frameF1))).map (fun t => t.res) = some 0x0A#64 := by decide +kernel

/-- Rule R97: the example, the most negative value, and the last legal offset of V-F1. -/
theorem test_lds16 :
    (after (exec (.lds16 49) (loaded frameF1))).map (fun t => t.res) = some 0xFFFFFFFFFFFFFFF4#64 ∧
    (after (exec (.lds16 55) (loaded frameF1))).map (fun t => t.res) = some 0xFFFFFFFFFFFF8000#64 ∧
    (after (exec (.lds16 62) (loaded frameF1))).map (fun t => t.res) = some 0x0A0D#64 := by
  decide +kernel

/-- Rule R98's example, and V-L19's offset on V-F1: bytes 56..63. -/
theorem test_ldu64 :
    (after (exec (.ldu64 6) (loaded frameF1))).map (fun t => t.res) = some 0x0000018BCFE5687B#64 ∧
    (after (exec (.ldu64 56) (loaded frameF1))).map (fun t => t.res) = some 0x0A0D27FFFF000180#64 := by
  decide +kernel

/-- Rule R99's example, and Roll. -/
theorem test_ldf32 :
    (after (exec (.ldf32 14) (loaded frameF1))).map (fun t => (t.res, t.fclass)) =
      some (0x3F800000#64, 0x2#4) ∧
    (after (exec (.ldf32 42) (loaded frameF1))).map (fun t => (t.res, t.fclass)) =
      some (0xC2340000#64, 0xA#4) := by decide +kernel

/-- V-E7 to V-E10: the first offset past each load's limit leaves RES as it is. -/
theorem test_load_range :
    ([.ldu64 57, .ldf32 61, .lds16 63, .ldu8 64] : List Instr).map
      (fun i => (after (exec i { loaded frameF1 with res := 5#64 })).map
        fun t => (t.res, t.status.word)) =
      List.replicate 4 (some (5#64, 0x24#32)) := by decide +kernel

/-- V-X1 to V-X13. -/
theorem test_fclass :
    ([0x00000000#32, 0x80000000#32, 0x00000001#32, 0x007FFFFF#32, 0x00800000#32, 0x3F800000#32,
      0x7F7FFFFF#32, 0x7F800000#32, 0xFF800000#32, 0x7FC00000#32, 0x7F800001#32, 0xFFFFFFFF#32,
      0xC2340000#32] : List (BitVec 32)).map fclassOf =
    [0x0#4, 0x8#4, 0x1#4, 0x1#4, 0x2#4, 0x2#4, 0x2#4, 0x3#4, 0xB#4, 0x4#4, 0x4#4, 0xC#4, 0xA#4] := by
  decide +kernel

/-- V-X2, V-X3, V-X5, V-X13 and V-F1's AccY: the values. -/
theorem test_f32val :
    f32val 0x80000000#32 = .zero true ∧ f32val 0x00000001#32 = .finite false 1 (-149) ∧
      (f32val 0x00800000#32).rat? = some (mkRat 1 (2 ^ 126)) ∧
      (f32val 0xC2340000#32).rat? = some (-45) ∧
      (f32val 0xC0200000#32).rat? = some (mkRat (-5) 2) := by decide +kernel

/-! ### DECODE -/

/-- V-D1. -/
theorem test_decode_accepts :
    (after (exec .decode (loaded frameF1))).map (fun t => (t.status.word, t.record.toList)) =
      some (1#32, recordD1) := by decide +kernel

/-- V-D4, V-D6, V-D8, V-D10, V-D11: the ghost causes; V-D12 to V-D14 are accepted. -/
theorem test_decode_verdicts :
    [rejectCause (counted (loaded frameF1) 63#16), rejectCause (counted (loaded frameF1) 65#16),
      rejectCause (loaded ((frameF1.set 3 0x02#8).set 61 0xFC#8)),
      rejectCause (loaded ((frameF1.set 4 0x37#8).set 61 0x74#8)),
      rejectCause (loaded (frameF1.set 61 0x26#8)), rejectCause (loaded (frameF1.set 20 0xA0#8)),
      rejectCause (loaded (frameF1.set 2 0x07#8)),
      rejectCause (loaded ((frameF1.set 2 0x07#8).set 61 0xC1#8)),
      rejectCause (loaded (((frameF1.set 0 0x00#8).set 1 0x00#8).set 61 0x96#8)),
      rejectCause (loaded ((frameF1.set 62 0x00#8).set 63 0xFF#8))] =
    [some .wrongLength, some .wrongLength, some .unsupportedCommand, some .lengthMismatch,
      some .checksumMismatch, some .checksumMismatch, some .checksumMismatch, none, none, none] := by
  decide +kernel

/-! ### Command errors, the read port, the assembler, the step -/

/-- V-E1 to V-E15, and that a second error keeps the first ERRCODE. -/
theorem test_command_errors :
    [0x00000003#32, 0x000000FF#32, 0x01000000#32, 0x00010001#32, 0x00010020#32, 0x01004022#32].map
      statusAfter = List.replicate 6 (some 0x14#32) ∧
    [0x00004022#32, 0x00003D23#32, 0x00003F21#32, 0x00004020#32, 0x00004013#32, 0x00053C12#32,
      0x00410012#32].map statusAfter = List.replicate 7 (some 0x24#32) ∧
    statusAfter 0x00004012#32 = some 0#32 ∧ statusAfter 0x00003C23#32 = some 0#32 ∧
    (Status.zero.raise .illegal |>.raise .range).word = 0x14#32 := by decide +kernel

/-- 2.2: the window after V-F1, address bits 1:0 ignored, REC as V-D1 shows it, an unmapped address. -/
theorem test_read_port :
    [0x200#10, 0x201#10, 0x22C#10, 0x23C#10, 0x004#10, 0x240#10, 0x018#10].map
      (readWord (loaded frameF1)) =
      [0x01005AA5#32, 0x01005AA5#32, 0x00FDC234#32, 0x0A0D27FF#32, 64#32, 0#32, 0#32] ∧
    [0x108#10, 0x10C#10, 0x188#10, 0x18C#10, 0x190#10].map
      (readWord { State.reset with record := ⟨recordD1.toArray, rfl⟩ }) =
      [0xCFE5687B#32, 0x0000018B#32, 0xFFFFFFFF#32, 0xFFFFFFFF#32, 0#32] := by decide +kernel

/-- A read step returns its word and takes the read away. -/
theorem test_step_read :
    (after (step (sending { State.reset with crc := 0xF4#8 } [.read 0x008#10]))).map
      (fun t => (t.observed, t.pending, t.position, t.crc)) = some ([0xF4#32], [], 0, 0xF4#8) := by
  decide +kernel

/-- An instruction placed with `withFetchWord` is the first that runs after reset. -/
theorem test_withFetchWord :
    (after (step (State.reset.withFetchWord 32 0x00A50011))).map
      (fun t => (t.crc, t.position, t.pending)) = some (0x72#8, 1, []) := by decide +kernel

/-- Two hosts on one instance are refused; nothing to take changes nothing. -/
theorem test_step_stops : step (sending State.reset [.secondHost]) = .refused .secondHost ∧
    step State.reset = .next State.reset := ⟨rfl, rfl⟩

/-- The reset event (rule R160): registers to 0, FBUF kept. -/
theorem test_reset_event :
    (after (step (sending { loaded [7#8] with crc := 1#8, record := Vector.replicate 18 9#64 }
      [.reset, .read 0x000#10]))).map
        (fun t => (t.buflen, t.crc, t.recSlot 0, t.fbufByte 0, t.pending)) =
      some (0#16, 0#8, 0#64, 7#8, [.read 0x000#10]) := by decide +kernel

/-- Rules R61, R63: a comment, two pseudo-instructions, and lines an assembler refuses. -/
theorem test_assembler :
    assembleLine "LOADFRAME 0xA5, 90 ; head" = some [0x00000001#32, 0x00A50002#32, 0x005A0002#32] ∧
    assembleLine "CRC8 0, 62" = some [0x00000010#32, 0x003E0012#32] ∧
    assembleLine "; nothing" = some [] ∧ assembleLine "PUSH 256" = none ∧
    assembleLine "CLEAR 1" = none ∧ assembleLine "CRCRANGE 1" = none ∧ assembleLine "FOO" = none := by
  decide +kernel

/-! ### Witnesses: states and operands that meet a statement's hypotheses -/

/-- V-F1, accepted, as DECODE's answer. -/
theorem loadedF1_decodes : exec .decode (loaded frameF1) = .next (acceptFrame (loaded frameF1)) :=
  exec_decode_accept (by decide +kernel)

/-- Nothing loaded: rejected. -/
theorem reset_rejects : exec .decode State.reset = .next (rejectFrame State.reset) :=
  exec_decode_reject (c := .wrongLength) (by decide +kernel)

/-- V-D1 in the statements' terms. -/
theorem loadedF1_accepts : DecodeAccepts (loaded frameF1) recordD1 :=
  ⟨_, loadedF1_decodes, rfl, by decide +kernel, fun c hc => by cases c <;> first | rfl | exact fun _ => rfl | exact ⟨rfl, rfl⟩ | simp at hc,
    rfl, rfl, rfl⟩

theorem witness_DecodeOfEncodeIsTheCommand :
    WellFormed (.crcrange 255 255) ∧ WellFormed (.ldu64 255) ∧ WellFormed (.push 0xFF#8) := by decide

theorem witness_EveryCommandWordIsItsEncoding :
    decode 0x00FFFF12#32 = .ok (.crcrange 255 255) ∧ decode 0x00FF0002#32 = .ok (.push 0xFF#8) := by
  decide

theorem witness_WordsAreBuiltByClass :
    (Instr.decode, 0x30) ∈ [(Instr.nop, 0x00), (.clear, 0x01), (.crcinit, 0x10), (.decode, 0x30)] ∧
      255 ≤ 255 ∧ 0 ≤ 255 := by decide

/-- The ends of rule R57's four ranges, and RSV. -/
theorem witness_IllegalWordsAreExactlyTheThreeKinds :
    (IsIllegal 0x03#32 ∧ IsIllegal 0x0F#32 ∧ IsIllegal 0x14#32 ∧ IsIllegal 0x1F#32 ∧ IsIllegal 0x24#32 ∧
      IsIllegal 0x2F#32 ∧ IsIllegal 0x31#32 ∧ IsIllegal 0xFF#32 ∧ IsIllegal 0x01000000#32) ∧
    (sending State.reset [.command 0x03#32]).pending = .command 0x03#32 :: [] :=
  ⟨⟨⟨.unassignedOp, by decide⟩, ⟨.unassignedOp, by decide⟩, ⟨.unassignedOp, by decide⟩,
    ⟨.unassignedOp, by decide⟩, ⟨.unassignedOp, by decide⟩, ⟨.unassignedOp, by decide⟩,
    ⟨.unassignedOp, by decide⟩, ⟨.unassignedOp, by decide⟩, ⟨.reservedNonzero, by decide⟩⟩, rfl⟩

theorem witness_StepRunsTheDecodedCommand :
    (sending State.reset [.command 0x00A50002#32]).pending = .command 0x00A50002#32 :: [] ∧
      decode 0x00A50002#32 = .ok (.push 0xA5#8) := ⟨rfl, by decide⟩

theorem witness_FetchedWordRunsNext : decodeTableWord 32 0x00FFFF12 = some (.crcrange 255 255) := by
  decide

/-- A command and a reset, each changing the block. -/
theorem witness_OnlyCommandsAndResetChangeTheBlock :
    (let s := sending State.reset [.command 0x00A50011#32]
     step s = .next ((s.accept []).setCrc (crc8Update 0x00#8 0xA5#8)) ∧
      ¬ SameBlock s ((s.accept []).setCrc (crc8Update 0x00#8 0xA5#8))) ∧
    (let s := sending { State.reset with crc := 1#8 } [.reset]
     step s = .next (s.resetEvent.setPending []) ∧ ¬ SameBlock s (s.resetEvent.setPending [])) :=
  ⟨⟨rfl, fun h => absurd (h.1 .crc) (by show ¬ (_ = _); decide +kernel)⟩,
    ⟨rfl, fun h => absurd (h.1 .crc) (by show ¬ (_ = _); decide +kernel)⟩⟩

theorem witness_ReadSeesEarlierCommands :
    (let s := sending State.reset [.command 0x00A50011#32, .read 0x008#10]
     s.pending = .command 0x00A50011#32 :: .read 0x008#10 :: [] ∧
      runCommand 0x00A50011#32 (s.accept [.read 0x008#10]) =
        .next ((s.accept [.read 0x008#10]).setCrc (crc8Update 0x00#8 0xA5#8))) := ⟨rfl, rfl⟩

/-- The ends of every row of the register map. -/
theorem witness_ReadPortReturnsTheRegisterMap :
    (∀ a ∈ [0x000, 0x004, 0x008, 0x00C, 0x010, 0x014, 0x100, 0x104, 0x188, 0x18C, 0x200, 0x23C],
      Mapped a ∧ a % 4 = 0) ∧
    (∀ a ∈ [0x018, 0x0FC, 0x190, 0x1FC, 0x240, 0x3FC], ¬ Mapped a ∧ a % 4 = 0) ∧
    ((0x1FC#10 : ReadAddr).toNat < 0x200 ∨ 0x240 ≤ (0x1FC#10 : ReadAddr).toNat) ∧
    ((0x240#10 : ReadAddr).toNat < 0x200 ∨ 0x240 ≤ (0x240#10 : ReadAddr).toNat) := by
  unfold Mapped
  decide +kernel

theorem witness_ReadHasNoSideEffect :
    (sending State.reset [.read 0x203#10]).pending = .read 0x203#10 :: [] ∧
      ¬ Mapped (0x193#10 &&& 0x3FC#10 : ReadAddr).toNat ∧ (3 = 3 ∨ 6 ≤ 3) ∧ (6 = 3 ∨ 6 ≤ 6) := by
  refine ⟨rfl, ?_, by decide⟩
  unfold Mapped
  decide +kernel

theorem witness_MixedWidthReadsAgree : 2 < 8 ∧ 62 ≤ 62 ∧
    exec (.ldu8 62) (loaded frameF1) = .next ((loaded frameF1).setRes (fldU8 (loaded frameF1) 62)) ∧
    exec (.lds16 62) (loaded frameF1) = .next ((loaded frameF1).setRes (fldS16 (loaded frameF1) 62)) :=
  ⟨by decide, by decide, rfl, rfl⟩

theorem witness_WindowWordIsMemRead : 0 < 16 ∧ 15 < 16 := by decide

theorem witness_CrcIsLinear : [0x01#8, 0x02#8].length = [0x02#8, 0x01#8].length := rfl

/-- The split of 2.1 (0, 30, 31), and DECODE's acceptance. -/
theorem witness_CrcComposesAndLeavesNoResidue :
    (let s := loaded frameF1
     let t := s.setCrc 0x00#8
     let u := t.setCrc (crc8From 0x00#8 (t.fbufBytes 0 30))
     let v := u.setCrc (crc8From u.crc (u.fbufBytes 30 31))
     let v' := t.setCrc (crc8From 0x00#8 (t.fbufBytes 0 61))
     exec .crcinit s = .next t ∧ exec (.crcrange 0 30) t = .next u ∧
      exec (.crcrange (0 + 30) 31) u = .next v ∧ exec (.crcrange 0 (30 + 31)) t = .next v') ∧
    0 + 30 + 31 ≤ 64 ∧ DecodeAccepts (loaded frameF1) recordD1 :=
  ⟨⟨rfl, rfl, rfl, rfl⟩, by decide, loadedF1_accepts⟩

theorem witness_OneByteChangeChangesTheCrc :
    0 < [0x01#8, 0x02#8].length ∧ 0x80#8 ≠ [0x01#8, 0x02#8][0] ∧
      1 < [0x01#8, 0x02#8].length ∧ 0x80#8 ≠ [0x01#8, 0x02#8][1] := by decide

/-- Histories of 0 and of 65 bytes, and a CLEAR from ERR = 1. -/
theorem witness_ClearStartsANewFrame :
    opField 0x00010001#32 = 0x01#8 ∧ (AgreesWithHistory [] State.reset ∧ ([] : List Byte).length ≠ 64) ∧
    (AgreesWithHistory (frameF1 ++ [0x00#8]) (counted (loaded frameF1) 65#16) ∧
      (frameF1 ++ [0x00#8]).length ≠ 64) ∧
    (let s := { State.reset with status := ⟨true, false, true, 1#2⟩ }
     s.status.err = true ∧ exec .clear s = .next s.clearRegisters ∧ s.clearRegisters.status.err = false) := by
  refine ⟨by decide, ⟨?_, by decide⟩, ⟨?_, by decide⟩, ⟨rfl, rfl, rfl⟩⟩
  · unfold AgreesWithHistory
    decide +kernel
  · unfold AgreesWithHistory
    decide +kernel

/-- BUFLEN 63, 64 and 0xFFFF. -/
theorem witness_PushAppendsAndCountsOneByte :
    opField 0x01A50002#32 = 0x02#8 ∧ (counted State.reset 63#16).pushAddress = some 63 ∧
      (counted State.reset 64#16).pushAddress = none ∧ (counted State.reset 0xFFFF#16).pushAddress = none ∧
      64 ≤ (counted State.reset 64#16).buflen.toNat := by decide +kernel

theorem witness_CrcinitResetsTheRegister : opField 0x01000010#32 = 0x10#8 := by decide

theorem witness_CrcbyteFeedsOneByte : opField 0x01000011#32 = 0x11#8 ∧
    ({ State.reset with crc := 0xFF#8 } : State).crc = 0xFF#8 ∧ State.reset.crc = 0x00#8 := by
  decide +kernel

/-- The ends of the range: 64 + 0 and 0 + 64 are legal, 60 + 5, 0 + 65 and 255 + 255 are not. -/
theorem witness_CrcrangeFeedsARange :
    255 ≤ 255 ∧ opField 0x01000012#32 = 0x12#8 ∧ 64 + 0 ≤ 64 ∧ 0 + 64 ≤ 64 ∧ 64 < 60 + 5 ∧ 64 < 0 + 65 ∧
      64 < 255 + 255 ∧ (loaded frameF1).frame = frameF1 ∧ (loaded frameF1).crc = 0x00#8 := by
  decide +kernel

theorem witness_CrcchkComparesAllBits :
    opField 0x00013D13#32 = 0x13#8 ∧ 63 ≤ 63 ∧ 63 < 64 ∧
      (let s := { loaded frameF1 with crc := 0x27#8 }
       s.frame = frameF1 ∧ s.crc = 0x27#8) := by decide +kernel

theorem witness_Ldu8LoadsAnUnsignedByte : opField 0x00010020#32 = 0x20#8 ∧ 63 ≤ 63 ∧ 63 < 64 ∧
    5 ≤ 63 ∧ (loaded frameF1).frame = frameF1 := by decide +kernel

/-- The offset limits, and the three byte pairs of the rule at the last legal offset. -/
theorem witness_Lds16LoadsASignedInteger :
    opField 0x00010021#32 = 0x21#8 ∧ 62 ≤ 62 ∧ 62 < 63 ∧ 49 ≤ 62 ∧ (loaded frameF1).frame = frameF1 ∧
    ((lastTwo 0x00#8 0x80#8).fbufByte 62 = 0x00#8 ∧ (lastTwo 0x00#8 0x80#8).fbufByte (62 + 1) = 0x80#8) ∧
    ((lastTwo 0xFF#8 0x7F#8).fbufByte 62 = 0xFF#8 ∧ (lastTwo 0xFF#8 0x7F#8).fbufByte (62 + 1) = 0x7F#8) ∧
    ((lastTwo 0xFF#8 0xFF#8).fbufByte 62 = 0xFF#8 ∧ (lastTwo 0xFF#8 0xFF#8).fbufByte (62 + 1) = 0xFF#8) := by
  decide +kernel

theorem witness_Ldu64LoadsAnUnsignedInteger : opField 0x00010022#32 = 0x22#8 ∧ 56 ≤ 56 ∧ 56 < 57 ∧
    6 ≤ 56 ∧ (loaded frameF1).frame = frameF1 := by decide +kernel

theorem witness_Ldf32LoadsThePatternAndItsClass : opField 0x00010023#32 = 0x23#8 ∧ 60 ≤ 60 ∧ 60 < 61 ∧
    14 ≤ 60 ∧ (loaded frameF1).frame = frameF1 := by decide +kernel

/-- An accepted frame; a rejected one of 64 bytes (V-D8); 63, 65 and 0xFFFF bytes. -/
theorem witness_DecodeFollowsTheSourceSteps :
    opField 0x00010030#32 = 0x30#8 ∧
    ((loaded frameF1).buflen.toNat = 64 ∧ Source.decode (loaded frameF1).frame = some recordD1 ∧
      (loaded frameF1).frame = frameF1) ∧
    ((loaded (frameF1.set 61 0x26#8)).buflen.toNat = 64 ∧
      Source.decode (loaded (frameF1.set 61 0x26#8)).frame = none) ∧
    ((counted (loaded frameF1) 63#16).buflen.toNat ≠ 64 ∧
      (counted (loaded frameF1) 65#16).buflen.toNat ≠ 64 ∧
      (counted (loaded frameF1) 0xFFFF#16).buflen.toNat ≠ 64) := by
  have h : (loaded frameF1).frame = frameF1 := by decide +kernel
  have h' : (loaded (frameF1.set 61 0x26#8)).frame = frameF1.set 61 0x26#8 := by decide +kernel
  rw [h, h']
  decide +kernel

theorem witness_DecodeIsIdempotent :
    (exec .decode (loaded frameF1) = .next (acceptFrame (loaded frameF1))) ∧
    (exec .decode State.reset = .next (rejectFrame State.reset) ∧
      (rejectFrame State.reset).status.valid = false) := ⟨loadedF1_decodes, reset_rejects, rfl⟩

/-- Two states that differ in every register but hold one frame. -/
theorem witness_DecodeDependsOnTheFrameAlone :
    (let s := { loaded frameF1 with crc := 9#8, res := 9#64, fclass := 1#4, status := ⟨false, true, true, 1#2⟩ }
     (loaded frameF1).frame = s.frame ∧ ((loaded frameF1).buflen.toNat = 64 ↔ s.buflen.toNat = 64) ∧
      exec .decode s = .next (acceptFrame s)) ∧
    exec .decode (loaded frameF1) = .next (acceptFrame (loaded frameF1)) := by
  exact ⟨⟨by decide +kernel, Iff.rfl, exec_decode_accept (by decide +kernel)⟩, loadedF1_decodes⟩

/-- V-F1 and V-D13 with V-D14's tail. -/
theorem witness_HeadDomainAndTailAreNotChecked :
    (let s := loaded (((((frameF1.set 0 0x00#8).set 1 0x00#8).set 61 0x96#8).set 62 0x00#8).set 63 0xFF#8)
     (loaded frameF1).buflen = s.buflen ∧
      (∀ i, i ≤ 60 → 3 ≤ i → (loaded frameF1).fbufByte i = s.fbufByte i) ∧
      (∀ x ∈ [loaded frameF1, s], crc8 (x.fbufBytes 0 61) = x.fbufByte 61) ∧
      rejectCause s = none) ∧
    exec .decode (loaded frameF1) = .next (acceptFrame (loaded frameF1)) :=
  ⟨by decide +kernel, loadedF1_decodes⟩

/-- V-D4, V-D2, V-D6, V-D8: each of the four conditions. -/
theorem witness_EachFailedCheckRejects :
    (loaded ((frameF1.set 3 0x02#8).set 61 0xFC#8)).fbufByte 3 ≠ 0x01#8 ∧
    RejectCondition (counted (loaded frameF1) 63#16) 1 ∧
    RejectCondition (loaded ((frameF1.set 3 0x02#8).set 61 0xFC#8)) 2 ∧
    RejectCondition (loaded ((frameF1.set 4 0x37#8).set 61 0x74#8)) 3 ∧
    RejectCondition (loaded (frameF1.set 61 0x26#8)) 4 := by
  unfold RejectCondition
  decide +kernel

/-- Each cause, and none. A frame that fails all four checks has the first. -/
theorem witness_RejectCauseIsTheFirstCondition :
    rejectCause (counted (loaded (((frameF1.set 3 2#8).set 4 0#8).set 61 0#8)) 63#16) = some .wrongLength ∧
    rejectCause (loaded ((frameF1.set 3 0x02#8).set 61 0xFC#8)) = some .unsupportedCommand ∧
    rejectCause (loaded ((frameF1.set 4 0x37#8).set 61 0x74#8)) = some .lengthMismatch ∧
    rejectCause (loaded (frameF1.set 61 0x26#8)) = some .checksumMismatch ∧
    rejectCause (loaded frameF1) = none := by decide +kernel

/-- What `cells` lists, from any first offset. -/
theorem zipIdx_cells_get? (bs : List Byte) (n i : Nat) :
    Memory.get? ((bs.zipIdx n).map fun p => (p.2, p.1)) i = if n ≤ i then bs[i - n]? else none := by
  induction bs generalizing n with
  | nil => simp [Memory.get?]
  | cons b rest ih =>
    rw [List.zipIdx_cons, List.map_cons, Memory.get?]
    rcases Nat.lt_trichotomy n i with h | h | h
    · rw [if_neg (Nat.ne_of_lt h), ih, if_pos (Nat.succ_le_of_lt h), if_pos (Nat.le_of_lt h),
        show i - n = (i - (n + 1)) + 1 by omega, List.getElem?_cons_succ]
    · simp [h]
    · rw [if_neg (Nat.ne_of_gt h), ih, if_neg (by omega), if_neg (by omega)]

/-- A loaded frame with one byte set reads as before at every other offset. -/
theorem loaded_set_other (bs : List Byte) {a i : Nat} (b : Byte) (h : i ≠ a) :
    (loaded (bs.set a b)).fbufByte i = (loaded bs).fbufByte i := by
  have hget : (cells (bs.set a b)).get? i = (cells bs).get? i := by
    rw [cells, cells, zipIdx_cells_get?, zipIdx_cells_get?, List.getElem?_set_ne (by omega)]
  show ((cells (bs.set a b)).get? i).getD _ = ((cells bs).get? i).getD _
  rw [hget]

/-- The first byte, a payload byte (V-D10), the checksum byte (V-D9), each against every other offset. -/
theorem witness_OneByteChangeIsRejected :
    DecodeAccepts (loaded frameF1) recordD1 ∧
    (∀ p ∈ [(0, 0x00#8), (20, 0xA0#8), (61, 0xA7#8)],
      p.1 ≤ 61 ∧ (loaded (frameF1.set p.1 p.2)).buflen = (loaded frameF1).buflen ∧
      (loaded (frameF1.set p.1 p.2)).fbufByte p.1 ≠ (loaded frameF1).fbufByte p.1) ∧
    (∀ p ∈ [(0, 0x00#8), (20, 0xA0#8), (61, 0xA7#8)], ∀ i, i ≠ p.1 →
      (loaded (frameF1.set p.1 p.2)).fbufByte i = (loaded frameF1).fbufByte i) :=
  ⟨loadedF1_accepts, by decide +kernel, fun p _ _ h => loaded_set_other frameF1 p.2 h⟩

theorem witness_RecordValuesAreRawTimesScale :
    DecodeAccepts (loaded frameF1) recordD1 ∧
      exec .decode (loaded frameF1) = .next (acceptFrame (loaded frameF1)) ∧
      (9, 42) ∈ [(2, 14), (3, 18), (4, 22), (5, 26), (6, 30), (7, 34), (8, 38), (9, 42)] ∧
      (17, 59) ∈ [(12, 49), (13, 51), (14, 53), (15, 55), (16, 57), (17, 59)] :=
  ⟨loadedF1_accepts, loadedF1_decodes, by decide, by decide⟩

/-- Every row of rule R101 at its ends. -/
theorem witness_BinaryValueFollowsTheFormula :
    (exponentOf 0x80000000 = 0 ∧ fractionOf 0x80000000 = 0) ∧
    (exponentOf 0x00000001 = 0 ∧ fractionOf 0x00000001 ≠ 0) ∧
    (exponentOf 0x007FFFFF = 0 ∧ fractionOf 0x007FFFFF ≠ 0) ∧
    (1 ≤ exponentOf 0x00800000 ∧ exponentOf 0x7F7FFFFF ≤ 254) ∧
    (exponentOf 0x7F800000 = 255 ∧ fractionOf 0x7F800000 = 0) ∧
    (exponentOf 0x7F800001 = 255 ∧ fractionOf 0x7F800001 ≠ 0) := by decide +kernel

/-- V-E1, V-E6 and V-E7. -/
theorem witness_CommandErrorsArePrecise :
    (sending State.reset [.command 0x01004022#32]).pending = .command 0x01004022#32 :: [] ∧
    IsIllegal 0x00000003#32 ∧ rsvField 0x01004022#32 ≠ 0 ∧
    decode 0x00004022#32 = .ok (.ldu64 64) ∧ ¬ RangeLegal (.ldu64 64) :=
  ⟨rfl, ⟨.unassignedOp, by decide⟩, by decide, by decide, by simp [RangeLegal]⟩

/-- Rule R59's limits, each at its last legal operand and the next. -/
theorem witness_RangeErrorsAreExactlyTheSix :
    (RangeLegal (.crcrange 64 0) ∧ ¬ RangeLegal (.crcrange 64 1)) ∧
    (RangeLegal (.crcchk 63) ∧ ¬ RangeLegal (.crcchk 64)) ∧
    (RangeLegal (.ldu8 63) ∧ ¬ RangeLegal (.ldu8 64)) ∧
    (RangeLegal (.lds16 62) ∧ ¬ RangeLegal (.lds16 63)) ∧
    (RangeLegal (.ldf32 60) ∧ ¬ RangeLegal (.ldf32 61)) ∧
    (RangeLegal (.ldu64 56) ∧ ¬ RangeLegal (.ldu64 57)) ∧ RangeLegal .clear := by simp [RangeLegal]

/-- A second error while ERR is 1, a CLEAR and a reset. -/
theorem witness_ErrorsAreStickyAndDoNotStopTheBlock :
    (∀ item ∈ [HostItem.command 0x00000003#32, .command 0x00000001#32, .reset],
      ∃ t, step (sending { State.reset with status := ⟨true, false, true, 1#2⟩ } [item]) = .next t) ∧
    exec .nop State.reset = .next State.reset := by
  refine ⟨?_, rfl⟩
  simp only [List.mem_cons, List.not_mem_nil, or_false, forall_eq_or_imp, forall_eq]
  exact ⟨⟨_, rfl⟩, ⟨_, rfl⟩, ⟨_, rfl⟩⟩

/-- Two states that agree on what PUSH reads and on nothing else it touches. -/
theorem witness_ReadWriteMatrixHolds :
    (let s₁ := State.reset
     let s₂ := { State.reset with crc := 9#8, fbuf := [(5, 9#8)], record := Vector.replicate 18 9#64 }
     RangeLegal (.push 1#8) ∧ exec (.push 1#8) s₁ = .next (s₁.storePushed 1#8).countPushed ∧
      exec (.push 1#8) s₂ = .next (s₂.storePushed 1#8).countPushed ∧
      ∀ c ∈ readCols (.push 1#8), c.Same s₁ s₂) ∧
    (¬ RangeLegal (.ldu8 64) ∧
      exec (.ldu8 64) State.reset = .next (State.reset.cmdError .range)) := by
  refine ⟨⟨trivial, rfl, rfl, fun c hc => ?_⟩, by simp [RangeLegal], rfl⟩
  rw [show c = .buflen by simpa [readCols] using hc]
  rfl

/-- DECODE accepting a frame from a record of zeros, and a reset of a record that is not zero. -/
theorem witness_OnlyAnAcceptingDecodeWritesTheRecord :
    (let s := sending (loaded frameF1) [.command 0x00000030#32]
     step s = .next (acceptFrame (s.accept [])) ∧ (acceptFrame (s.accept [])).record ≠ s.record) ∧
    (let s := sending { State.reset with record := Vector.replicate 18 9#64 } [.reset]
     step s = .next (s.resetEvent.setPending []) ∧ (s.resetEvent.setPending []).record ≠ s.record) := by
  refine ⟨⟨?_, by decide +kernel⟩, rfl, by decide +kernel⟩
  exact (step_command (rest := []) rfl (by decide)).trans (exec_decode_accept (by decide +kernel))

/-- PUSH 2 where 1 stood, at offset 0 and at offset 63. -/
theorem witness_OnlyPushWritesTheFrameBuffer :
    ∀ a ∈ [0, 63],
      let s := sending { State.reset with fbuf := [(a, 1#8)], buflen := BitVec.ofNat 16 a }
        [.command 0x00020002#32]
      step s = .next (((s.accept []).storePushed 2#8).countPushed) ∧
        (((s.accept []).storePushed 2#8).countPushed).fbufByte a ≠ s.fbufByte a := by
  simp only [List.mem_cons, List.not_mem_nil, or_false, forall_eq_or_imp, forall_eq]
  exact ⟨⟨rfl, by decide +kernel⟩, ⟨rfl, by decide +kernel⟩⟩

theorem witness_ResetSetsTheResetValues :
    (sending (loaded frameF1) [.reset]).pending = .reset :: [] := rfl

/-- A state that meets the invariant, FBUF full, and a step from it. -/
theorem witness_EveryStepKeepsTheInvariant :
    (sending (loaded frameF1) [.read 0x000#10]).Inv ∧
      step (sending (loaded frameF1) [.read 0x000#10]) =
        .next ((sending (loaded frameF1) [.read 0x000#10]).returnWord
          (readWord (sending (loaded frameF1) [.read 0x000#10]) 0x000#10) []) :=
  ⟨⟨by decide +kernel, by decide +kernel, by decide +kernel, by decide +kernel, by decide +kernel⟩, rfl⟩

/-- A PUSH on an empty history, a CLEAR, a reset, and a full buffer. -/
theorem witness_BufferHoldsTheBytesPushedSinceClear :
    (∀ item ∈ [HostItem.command 0x00A50002#32, .command 0x00000001#32, .reset],
      AgreesWithHistory [] (sending State.reset [item]) ∧
        (sending State.reset [item]).pending = item :: [] ∧
        ∃ t, step (sending State.reset [item]) = .next t) ∧
    AgreesWithHistory frameF1 (loaded frameF1) ∧ (loaded frameF1).buflen.toNat = 64 := by
  refine ⟨?_, ?_, by decide +kernel⟩
  · simp only [List.mem_cons, List.not_mem_nil, or_false, forall_eq_or_imp, forall_eq]
    exact ⟨⟨⟨rfl, fun i hi => absurd hi (Nat.not_lt_zero i)⟩, rfl, _, rfl⟩,
      ⟨⟨rfl, fun i hi => absurd hi (Nat.not_lt_zero i)⟩, rfl, _, rfl⟩,
      ⟨⟨rfl, fun i hi => absurd hi (Nat.not_lt_zero i)⟩, rfl, _, rfl⟩⟩
  · unfold AgreesWithHistory
    decide +kernel

/-- V-F1, V-D8, no byte at all, and byte 63 of 64. -/
theorem witness_PushedFrameDecodesAsTheSourceDoes :
    Source.decode frameF1 = some recordD1 ∧ Source.decode (frameF1.set 61 0x26#8) = none ∧
      Source.decode [] = none ∧ 63 < frameF1.length ∧ 63 < 64 := by decide +kernel

end Sys2Proof.Tests
end

section
/-! PROOFS. The host's side of the ports: no command writes it, a read adds one word to it and leaves the
block as it was (rules R27, R45). -/

namespace Sys2Proof.Machine

open Sys2Proof.Claims

/-- A command error leaves the host's side. -/
theorem cmdError_keeps_hostSide (s : State) (c : CmdError) : SameHostSide s (s.cmdError c) :=
  ⟨rfl, rfl, rfl⟩

/-- A PUSH leaves the host's side. -/
theorem push_keeps_hostSide (s : State) (b : Byte) : SameHostSide s (s.storePushed b).countPushed :=
  ⟨by simp, by simp, by simp⟩

/-- A checked command leaves the host's side when its own effect does. -/
theorem rangeChecked_keeps_hostSide {off n : Nat} {s done t : State}
    (h : rangeChecked off n s done = .next t) (hdone : SameHostSide s done) : SameHostSide s t := by
  rcases rangeChecked_cases h with ⟨-, rfl⟩ | ⟨-, rfl⟩
  · exact hdone
  · exact cmdError_keeps_hostSide s .range

/-- DECODE leaves the host's side, whether it accepts or rejects. -/
theorem execDecode_keeps_hostSide {s t : State} (h : execDecode s = .next t) : SameHostSide s t := by
  rcases execDecode_cases h with ⟨-, rfl⟩ | ⟨-, rfl⟩
  · exact ⟨rfl, rfl, rfl⟩
  · exact ⟨rfl, rfl, rfl⟩

/-- No command writes the host's side of the ports. -/
theorem exec_keeps_hostSide {i : Instr} {s t : State} (h : exec i s = .next t) : SameHostSide s t := by
  cases i with
  | nop | clear | crcinit | crcbyte => cases h; exact ⟨rfl, rfl, rfl⟩
  | push b => cases h; exact push_keeps_hostSide s b
  | crcrange | crcchk | ldu8 | lds16 | ldu64 | ldf32 =>
    exact rangeChecked_keeps_hostSide h ⟨rfl, rfl, rfl⟩
  | decode => exact execDecode_keeps_hostSide h

/-- No command word writes the host's side of the ports, be it legal or not. -/
theorem runCommand_keeps_hostSide {w : Word} {s t : State} (h : runCommand w s = .next t) :
    SameHostSide s t := by
  unfold runCommand at h
  cases hd : decode w with
  | ok i => rw [hd] at h; exact exec_keeps_hostSide h
  | error e => rw [hd] at h; cases h; exact cmdError_keeps_hostSide s .illegal

/-- A read changes nothing of the block (rule R27). -/
theorem sameBlock_returnWord (s : State) (w : Word) (rest : List HostItem) :
    SameBlock s (s.returnWord w rest) := by
  refine ⟨fun c => ?_, rfl⟩
  cases c with
  | fbuf => exact fun _ => rfl
  | errs => exact ⟨rfl, rfl⟩
  | _ => rfl

/-- A step at a read returns the register map's word. -/
theorem step_read {s : State} {addr : ReadAddr} {rest : List HostItem}
    (hp : s.pending = .read addr :: rest) : step s = .next (s.returnWord (readWord s addr) rest) :=
  step_item hp

/-- Settles O11: the command leaves the host's side of the ports, so the next step takes the read, at the
state the command left. -/
theorem readSeesEarlierCommands : Obligations.ReadSeesEarlierCommands := by
  intro s u w addr rest hp hrun
  obtain ⟨hpending, hposition, hobserved⟩ := runCommand_keeps_hostSide hrun
  have hcommand : step s = .next u := (step_item hp).trans hrun
  have hread := step_read hpending
  refine ⟨u.returnWord (readWord u addr) rest, ?_, ?_, sameBlock_returnWord u _ rest, rfl, hposition⟩
  · exact (run_succ_next hcommand 1).trans (run_succ_next hread 0)
  · rw [State.returnWord_observed, hobserved, State.accept_observed]

end Sys2Proof.Machine
end

section
/-! PROOFS. What a command does, said once: its effect when it is legal to execute, a RANGE error
otherwise; and the frame of every operation and of every command (rules R31, R59). -/

namespace Sys2Proof.Machine

/-! ### Frames as a relation -/

theorem Col.Same.refl (c : Col) (s : State) : c.Same s s := by
  cases c with
  | fbuf => exact fun _ => rfl
  | errs => exact ⟨rfl, rfl⟩
  | _ => rfl

theorem Col.Same.trans {c : Col} {s t u : State} (hst : c.Same s t) (htu : c.Same t u) :
    c.Same s u := by
  cases c with
  | fbuf => exact fun a => (htu a).trans (hst a)
  | errs => exact ⟨htu.1.trans hst.1, htu.2.trans hst.2⟩
  | _ => exact Eq.trans htu hst

/-- A frame, column by column. -/
theorem sameExcept_iff {cols : List Col} {s t : State} :
    SameExcept cols s t ↔
      (.fbuf ∉ cols → ∀ a, t.fbufByte a = s.fbufByte a) ∧
      (.buflen ∉ cols → t.buflen = s.buflen) ∧
      (.crc ∉ cols → t.crc = s.crc) ∧
      (.res ∉ cols → t.res = s.res) ∧
      (.fclass ∉ cols → t.fclass = s.fclass) ∧
      (.valid ∉ cols → t.status.valid = s.status.valid) ∧
      (.mtch ∉ cols → t.status.mtch = s.status.mtch) ∧
      (.errs ∉ cols → t.status.err = s.status.err ∧ t.status.errcode = s.status.errcode) ∧
      (.record ∉ cols → t.record = s.record) ∧ SameHostSide s t := by
  constructor
  · rintro ⟨h, host⟩
    exact ⟨h .fbuf, h .buflen, h .crc, h .res, h .fclass, h .valid, h .mtch, h .errs, h .record, host⟩
  · rintro ⟨hfbuf, hbuflen, hcrc, hres, hfclass, hvalid, hmtch, herrs, hrecord, host⟩
    refine ⟨fun c => ?_, host⟩
    cases c with
    | fbuf => exact hfbuf
    | buflen => exact hbuflen
    | crc => exact hcrc
    | res => exact hres
    | fclass => exact hfclass
    | valid => exact hvalid
    | mtch => exact hmtch
    | errs => exact herrs
    | record => exact hrecord

theorem SameExcept.refl (cols : List Col) (s : State) : SameExcept cols s s :=
  ⟨fun c _ => Col.Same.refl c s, rfl, rfl, rfl⟩

theorem SameExcept.mono {cols cols' : List Col} {s t : State} (h : SameExcept cols s t)
    (hsub : cols ⊆ cols') : SameExcept cols' s t :=
  ⟨fun c hc => h.1 c fun hmem => hc (hsub hmem), h.2⟩

/-- Frames compose: what neither of two changes touches is unchanged by both. -/
theorem SameExcept.trans {cols cols' : List Col} {s t u : State} (hst : SameExcept cols s t)
    (htu : SameExcept cols' t u) : SameExcept (cols ++ cols') s u := by
  obtain ⟨hcol, hpending, hposition, hobserved⟩ := hst
  obtain ⟨hcol', hpending', hposition', hobserved'⟩ := htu
  refine ⟨fun c hc => ?_, hpending'.trans hpending, hposition'.trans hposition,
    hobserved'.trans hobserved⟩
  rw [List.mem_append, not_or] at hc
  exact (hcol c hc.1).trans (hcol' c hc.2)

/-! ### The frame of each operation -/

section
variable (s : State)

theorem sameExcept_setFbuf (m : Memory) : SameExcept [.fbuf] s (s.setFbuf m) := by
  simp [sameExcept_iff, SameHostSide]

theorem sameExcept_setBuflen (n : BitVec 16) : SameExcept [.buflen] s (s.setBuflen n) := by
  simp [sameExcept_iff, SameHostSide]

theorem sameExcept_setCrc (c : Byte) : SameExcept [.crc] s (s.setCrc c) := by
  simp [sameExcept_iff, SameHostSide]

theorem sameExcept_setRes (v : Slot) : SameExcept [.res] s (s.setRes v) := by
  simp [sameExcept_iff, SameHostSide]

theorem sameExcept_setFclass (k : BitVec 4) : SameExcept [.fclass] s (s.setFclass k) := by
  simp [sameExcept_iff, SameHostSide]

theorem sameExcept_setRecord (r : Vector Slot 18) : SameExcept [.record] s (s.setRecord r) := by
  simp [sameExcept_iff, SameHostSide]

theorem sameExcept_setValid (v : Bool) :
    SameExcept [.valid] s (s.setStatus (s.status.setValid v)) := by
  simp [sameExcept_iff, SameHostSide]

theorem sameExcept_setMatch (m : Bool) :
    SameExcept [.mtch] s (s.setStatus (s.status.setMatch m)) := by
  simp [sameExcept_iff, SameHostSide]

/-- A command error changes ERR and ERRCODE only (rule R137). -/
theorem sameExcept_cmdError (c : CmdError) : SameExcept [.errs] s (s.cmdError c) := by
  simp [sameExcept_iff, SameHostSide]

/-- CLEAR keeps FBUF and REC (rule R71). -/
theorem sameExcept_clearRegisters :
    SameExcept [.buflen, .crc, .res, .fclass, .valid, .mtch, .errs] s s.clearRegisters := by
  simp [sameExcept_iff, SameHostSide]

theorem sameExcept_storePushed (b : Byte) : SameExcept [.fbuf] s (s.storePushed b) := by
  rcases storePushed_cases s b with ⟨-, e⟩ | ⟨-, e⟩
  · rw [e]; exact sameExcept_setFbuf s _
  · rw [e]; exact SameExcept.refl _ s

theorem sameExcept_countPushed : SameExcept [.buflen] s s.countPushed := by
  rcases countPushed_cases s with ⟨-, e⟩ | ⟨-, e⟩
  · rw [e]; exact SameExcept.refl _ s
  · rw [e]; exact sameExcept_setBuflen s _

theorem sameExcept_rejectFrame : SameExcept [.valid] s (rejectFrame s) :=
  sameExcept_setValid s false

theorem sameExcept_acceptFrame : SameExcept [.valid, .record] s (acceptFrame s) :=
  ((sameExcept_setRecord s _).trans (sameExcept_setValid _ true)).mono (by simp)

end

/-! ### What a command does -/

/-- The verdict and record of DECODE (rule R116). -/
def decodeEffect (s : State) : State := if rejectCause s = none then acceptFrame s else rejectFrame s

/-- What a command does when it is no command error. -/
def effect (i : Instr) (s : State) : State :=
  match i with
  | .nop => s
  | .clear => s.clearRegisters
  | .push b => (s.storePushed b).countPushed
  | .crcinit => s.setCrc Config.crcInit
  | .crcbyte b => s.setCrc (crc8Update s.crc b)
  | .crcrange off cnt => s.setCrc (crc8From s.crc (s.fbufBytes off cnt))
  | .crcchk off => s.setStatus (s.status.setMatch (s.crc == s.fbufByte off))
  | .ldu8 off => s.setRes (fldU8 s off)
  | .lds16 off => s.setRes (fldS16 s off)
  | .ldu64 off => s.setRes (fldU64 s off)
  | .ldf32 off => (s.setRes (fldF32 s off)).setFclass (fclassOf (f32Pattern s off))
  | .decode => decodeEffect s

theorem execDecode_eq (s : State) : execDecode s = .next (decodeEffect s) := by
  unfold decodeEffect
  cases h : rejectCause s with
  | none => exact exec_decode_accept h
  | some c => exact exec_decode_reject h

/-- A legal command answers its effect. -/
theorem exec_of_rangeLegal {i : Instr} (h : RangeLegal i) (s : State) :
    exec i s = .next (effect i s) := by
  cases i with
  | nop | clear | push | crcinit | crcbyte => rfl
  | crcrange => exact rangeChecked_in h s _
  | crcchk | ldu8 | lds16 | ldu64 | ldf32 =>
    simp only [RangeLegal] at h
    exact rangeChecked_in (by omega) s _
  | decode => exact execDecode_eq s

/-- A command that is not legal to execute is a RANGE error. -/
theorem exec_of_not_rangeLegal {i : Instr} (h : ¬ RangeLegal i) (s : State) :
    exec i s = .next (s.cmdError .range) := by
  cases i with
  | nop | clear | push | crcinit | crcbyte | decode => exact absurd trivial h
  | crcrange | crcchk | ldu8 | lds16 | ldu64 | ldf32 =>
    simp only [RangeLegal] at h
    exact rangeChecked_out (by omega) s _

/-- Everything a command can do. -/
theorem exec_cases {i : Instr} {s t : State} (h : exec i s = .next t) :
    (RangeLegal i ∧ t = effect i s) ∨ (¬ RangeLegal i ∧ t = s.cmdError .range) := by
  by_cases hr : RangeLegal i
  · rw [exec_of_rangeLegal hr] at h
    exact .inl ⟨hr, (Host.Outcome.next.inj h).symm⟩
  · rw [exec_of_not_rangeLegal hr] at h
    exact .inr ⟨hr, (Host.Outcome.next.inj h).symm⟩

/-- DECODE writes VALID and REC only. -/
theorem sameExcept_decodeEffect (s : State) : SameExcept [.valid, .record] s (decodeEffect s) := by
  unfold decodeEffect
  split
  · exact sameExcept_acceptFrame s
  · exact (sameExcept_rejectFrame s).mono (by simp)

/-- A legal command changes only the columns marked W for it. -/
theorem sameExcept_effect (i : Instr) (s : State) : SameExcept (writtenCols i) s (effect i s) := by
  cases i with
  | nop => exact SameExcept.refl _ s
  | clear => exact sameExcept_clearRegisters s
  | push b => exact (sameExcept_storePushed s b).trans (sameExcept_countPushed _)
  | crcinit | crcbyte | crcrange => exact sameExcept_setCrc s _
  | crcchk => exact sameExcept_setMatch s _
  | ldu8 | lds16 | ldu64 => exact sameExcept_setRes s _
  | ldf32 => exact (sameExcept_setRes s _).trans (sameExcept_setFclass _ _)
  | decode => exact sameExcept_decodeEffect s

end Sys2Proof.Machine
end

section
/-! PROOFS. Every step keeps the invariant (rules R17, R20, R21, R36). -/

namespace Sys2Proof.Machine

/-- The invariant looks at FBUF, BUFLEN, FCLASS, ERR and ERRCODE alone. -/
theorem State.Inv.of_same {s t : State} (hs : s.Inv) (hfbuf : t.fbuf = s.fbuf)
    (hbuflen : t.buflen = s.buflen) (hclass : t.fclass.toNat % 8 ≤ 4)
    (herr : t.status.err = s.status.err) (hcode : t.status.errcode = s.status.errcode) : t.Inv where
  fbuf_wf := by rw [hfbuf]; exact hs.fbuf_wf
  counted_written := by rw [hfbuf, hbuflen]; exact hs.counted_written
  class_legal := hclass
  errcode_legal := by rw [hcode]; exact hs.errcode_legal
  errcode_zero := by rw [herr, hcode]; exact hs.errcode_zero

/-- The class number of a pattern is at most 4 (rule R104). -/
theorem f32Class_toNat_le (w : BitVec 32) : (f32Class w).toNat ≤ 4 := by
  unfold f32Class
  split_ifs <;> decide

/-- The class of a pattern is none of the values 5 to 7 (rule R20). -/
theorem fclassOf_legal (w : BitVec 32) : (fclassOf w).toNat % 8 ≤ 4 := by
  have hsplit : (fclassOf w).toNat = (f32Sign w).toNat * 8 + (f32Class w).toNat := by
    rw [fclassOf, BitVec.toNat_append, ← Nat.shiftLeft_add_eq_or_of_lt (f32Class w).isLt,
      Nat.shiftLeft_eq, BitVec.toNat_ofBool]
  have := f32Class_toNat_le w
  omega

/-- Setting the registers to 0 keeps the invariant: nothing is counted and there is no error. -/
theorem State.Inv.clearRegisters {s : State} (hs : s.Inv) : s.clearRegisters.Inv where
  fbuf_wf := hs.fbuf_wf
  counted_written := by simp
  class_legal := by simp
  errcode_legal := by simp
  errcode_zero := by simp

/-- A command error sets ERR, and ERRCODE is then 1 or 2, or what it was under an earlier error. -/
theorem State.Inv.cmdError {s : State} (hs : s.Inv) (c : CmdError) : (s.cmdError c).Inv := by
  have hcode : (s.status.raise c).errcode.toNat ≠ 0 ∧ (s.status.raise c).errcode.toNat ≠ 3 := by
    rw [Status.raise_errcode]
    split
    · next herr => exact ⟨fun h0 => by simp [hs.errcode_zero.mpr h0] at herr, hs.errcode_legal⟩
    · cases c <;> decide
  exact ⟨hs.fbuf_wf, hs.counted_written, hs.class_legal, hcode.2, by simpa using hcode.1⟩

/-- The store of a PUSH keeps FBUF's canonical form. -/
theorem State.Inv.storePushed_wf {s : State} (hs : s.Inv) (b : Byte) :
    (s.storePushed b).fbuf.wf = true := by
  rcases storePushed_cases s b with ⟨hroom, e⟩ | ⟨-, e⟩
  · rw [e]; exact Memory.wf_write b hs.fbuf_wf hroom
  · rw [e]; exact hs.fbuf_wf

/-- After the store of a PUSH the byte at BUFLEN is written too. -/
theorem State.Inv.storePushed_written {s : State} (hs : s.Inv) (b : Byte) {i : Nat}
    (hi : i < min (s.buflen.toNat + 1) 64) : ((s.storePushed b).fbuf.get? i).isSome = true := by
  rcases storePushed_cases s b with ⟨hroom, e⟩ | ⟨hfull, e⟩
  · rw [e, State.setFbuf_fbuf]
    by_cases hib : i = s.buflen.toNat
    · rw [hib, Memory.get?_write_same]; rfl
    · rw [Memory.get?_write_other _ b hib]
      exact hs.counted_written i (by omega)
  · rw [e]; exact hs.counted_written i (by omega)

/-- PUSH keeps the invariant: the byte it counts is the one it writes. -/
theorem State.Inv.push {s : State} (hs : s.Inv) (b : Byte) :
    ((s.storePushed b).countPushed).Inv where
  fbuf_wf := by rw [countPushed_fbuf]; exact hs.storePushed_wf b
  counted_written i hi := by
    rw [countPushed_toNat, storePushed_buflen] at hi
    rw [countPushed_fbuf]
    exact hs.storePushed_written b (by omega)
  class_legal := by simpa using hs.class_legal
  errcode_legal := by simpa using hs.errcode_legal
  errcode_zero := by simpa using hs.errcode_zero

/-- DECODE writes nothing the invariant looks at. -/
theorem State.Inv.decodeEffect {s : State} (hs : s.Inv) : (decodeEffect s).Inv := by
  unfold Machine.decodeEffect
  split
  · exact hs.of_same rfl rfl hs.class_legal rfl rfl
  · exact hs.of_same rfl rfl hs.class_legal rfl rfl

/-- A legal command keeps the invariant. -/
theorem State.Inv.effect {s : State} (hs : s.Inv) (i : Instr) : (effect i s).Inv := by
  cases i with
  | nop => exact hs
  | clear => exact hs.clearRegisters
  | push b => exact hs.push b
  | crcinit | crcbyte | crcrange | crcchk | ldu8 | lds16 | ldu64 =>
    exact hs.of_same rfl rfl hs.class_legal rfl rfl
  | ldf32 => exact hs.of_same rfl rfl (fclassOf_legal _) rfl rfl
  | decode => exact hs.decodeEffect

/-- Every command keeps the invariant, be it legal to execute or not. -/
theorem State.Inv.exec {i : Instr} {s t : State} (hs : s.Inv) (h : exec i s = .next t) : t.Inv := by
  rcases exec_cases h with ⟨-, rfl⟩ | ⟨-, rfl⟩
  · exact hs.effect i
  · exact hs.cmdError .range

/-- Accepting a command word keeps the invariant. -/
theorem State.Inv.accept {s : State} (hs : s.Inv) (rest : List HostItem) : (s.accept rest).Inv :=
  hs.of_same rfl rfl hs.class_legal rfl rfl

/-- Settles O51, by what the step can have taken. -/
theorem everyStepKeepsTheInvariant : Obligations.EveryStepKeepsTheInvariant := by
  intro s t hs h
  rcases step_cases h with ⟨-, rfl⟩ | ⟨w, i, rest, -, -, he⟩ | ⟨w, e, rest, -, -, rfl⟩ |
    ⟨addr, rest, -, rfl⟩ | ⟨rest, -, rfl⟩
  · exact hs
  · exact (hs.accept rest).exec he
  · exact (hs.accept rest).cmdError .illegal
  · exact hs.of_same rfl rfl hs.class_legal rfl rfl
  · exact hs.clearRegisters.of_same rfl rfl hs.clearRegisters.class_legal rfl rfl

/-- Settles O52: nothing is written, nothing is counted and there is no error. -/
theorem resetMeetsTheInvariant : Obligations.ResetMeetsTheInvariant where
  fbuf_wf := Memory.wf_reset
  counted_written := by simp [State.reset]
  class_legal := by decide
  errcode_legal := by decide
  errcode_zero := by decide

end Sys2Proof.Machine
end

section
/-! PROOFS. BUFLEN and FBUF are what the bytes pushed since the last CLEAR or reset say (rules R15, R16,
R72). -/

namespace Sys2Proof.Machine

/-- The history speaks of BUFLEN and FBUF alone. -/
theorem AgreesWithHistory.of_same {h : List Byte} {s t : State} (hs : AgreesWithHistory h s)
    (hbuflen : Col.buflen.Same s t) (hfbuf : Col.fbuf.Same s t) : AgreesWithHistory h t := by
  obtain ⟨hlen, hbyte⟩ := hs
  exact ⟨hbuflen ▸ hlen, fun i hi hi64 => (hfbuf i).trans (hbyte i hi hi64)⟩

/-- Below 64 the count is the length of the history, so the byte at BUFLEN is the next one of it. -/
theorem AgreesWithHistory.push {h : List Byte} {s : State} (hs : AgreesWithHistory h s) (b : Byte) :
    AgreesWithHistory (h ++ [b]) (s.storePushed b).countPushed := by
  obtain ⟨hlen, hbyte⟩ := hs
  constructor
  · rw [countPushed_toNat, storePushed_buflen, hlen, List.length_append, List.length_singleton]
    omega
  · intro i hi hi64
    rw [List.length_append, List.length_singleton] at hi
    rw [fbufByte_countPushed, fbufByte_storePushed]
    by_cases hih : i < h.length
    · rw [if_neg (by omega), List.getElem_append_left hih]
      exact hbyte i hih hi64
    · rw [if_pos (by omega), List.getElem_concat_length (by omega)]

/-- With BUFLEN = 0 the history is empty. -/
theorem agreesWithHistory_nil {s : State} (h : s.buflen = 0#16) : AgreesWithHistory [] s :=
  ⟨by simp [h], fun _ hi => absurd hi (Nat.not_lt_zero _)⟩

/-- The history after a command: PUSH appends, CLEAR starts anew, every other command leaves it. -/
def commandHistory (h : List Byte) (i : Instr) : List Byte :=
  match i with
  | .push b => h ++ [b]
  | .clear => []
  | _ => h

theorem pushHistory_command {w : Word} {i : Instr} (hd : decode w = .ok i) (h : List Byte) :
    pushHistory h (.command w) = commandHistory h i := by
  cases i <;> simp only [pushHistory, hd, commandHistory]

theorem pushHistory_illegal {w : Word} {e : IllegalWord} (hd : decode w = .error e) (h : List Byte) :
    pushHistory h (.command w) = h := by
  simp only [pushHistory, hd]

/-- A legal command takes a state that agrees with a history to one that agrees with the next. -/
theorem AgreesWithHistory.effect {h : List Byte} {s : State} (hs : AgreesWithHistory h s) (i : Instr) :
    AgreesWithHistory (commandHistory h i) (effect i s) := by
  have hframe := (sameExcept_effect i s).1
  cases i with
  | push b => exact hs.push b
  | clear => exact agreesWithHistory_nil rfl
  | nop | crcinit | crcbyte | crcrange | crcchk | ldu8 | lds16 | ldu64 | ldf32 | decode =>
    exact hs.of_same (hframe .buflen (by simp [writtenCols])) (hframe .fbuf (by simp [writtenCols]))

/-- A command error leaves the history: the commands that can be one neither push nor clear. -/
theorem commandHistory_of_not_rangeLegal {i : Instr} (hr : ¬ RangeLegal i) (h : List Byte) :
    commandHistory h i = h := by
  cases i with
  | push | clear => exact absurd trivial hr
  | _ => rfl

theorem AgreesWithHistory.exec {h : List Byte} {i : Instr} {s t : State} (hs : AgreesWithHistory h s)
    (he : exec i s = .next t) : AgreesWithHistory (commandHistory h i) t := by
  rcases exec_cases he with ⟨-, rfl⟩ | ⟨hr, rfl⟩
  · exact hs.effect i
  · rw [commandHistory_of_not_rangeLegal hr]
    exact hs.of_same rfl fun _ => rfl

/-- Every item of the stream takes the history and the buffer along. -/
theorem AgreesWithHistory.step {h : List Byte} {s t : State} {item : HostItem} {rest : List HostItem}
    (hs : AgreesWithHistory h s) (hp : s.pending = item :: rest) (ht : step s = .next t) :
    AgreesWithHistory (pushHistory h item) t := by
  have hacc : ∀ rest, AgreesWithHistory h (s.accept rest) := fun _ => hs.of_same rfl fun _ => rfl
  rcases step_cases ht with ⟨hp', -⟩ | ⟨w, i, rest', hp', hd, he⟩ | ⟨w, e, rest', hp', hd, rfl⟩ |
    ⟨addr, rest', hp', rfl⟩ | ⟨rest', hp', rfl⟩
  all_goals rw [hp] at hp'; cases hp'
  · rw [pushHistory_command hd]; exact (hacc rest).exec he
  · rw [pushHistory_illegal hd]; exact (hacc rest).of_same rfl fun _ => rfl
  · exact hs.of_same rfl fun _ => rfl
  · exact agreesWithHistory_nil rfl

/-- The CLEAR word and a reset set BUFLEN to 0, from any state. -/
theorem step_clear_or_reset_buflen {s t : State} {item : HostItem} {rest : List HostItem}
    (hp : s.pending = item :: rest) (ht : step s = .next t)
    (hitem : item = .command 0x00000001#32 ∨ item = .reset) : t.buflen = 0#16 := by
  rcases hitem with rfl | rfl
  · rw [step_command hp (i := .clear) (by decide)] at ht
    cases ht; rfl
  · rw [step_item hp] at ht
    cases ht; rfl

/-- A full buffer is the whole history. -/
theorem AgreesWithHistory.frame_eq {h : List Byte} {s : State} (hs : AgreesWithHistory h s)
    (hfull : s.buflen.toNat = 64) : s.frame = h := by
  obtain ⟨hlen, hbyte⟩ := hs
  have h64 : h.length = 64 := by omega
  refine List.ext_getElem (by simp [State.frame, h64]) fun i hi hih => ?_
  calc s.frame[i] = s.fbufByte (0 + i) := s.fbufBytes_getElem 0 64 i hi
    _ = s.fbufByte i := by rw [Nat.zero_add]
    _ = h[i] := hbyte i hih (by omega)

/-- Settles O53, by what the step can have taken. -/
theorem bufferHoldsTheBytesPushedSinceClear : Obligations.BufferHoldsTheBytesPushedSinceClear :=
  ⟨fun _ _ _ _ _ hs hp ht => hs.step hp ht,
    fun _ _ _ _ hp ht hitem => agreesWithHistory_nil (step_clear_or_reset_buflen hp ht hitem),
    fun _ _ hs hfull => hs.frame_eq hfull⟩

end Sys2Proof.Machine
end

section
/-! PROOFS. The read/write matrix: what a command does to the columns marked W depends only on the
columns marked R (rule R31). -/

namespace Sys2Proof.Machine

open Sys2Proof.Claims

/-! ### What reads FBUF reads its bytes alone -/

section
variable {s t : State} (hfbuf : Col.fbuf.Same s t)
include hfbuf

theorem fbufBytes_of_same (off n : Nat) : t.fbufBytes off n = s.fbufBytes off n :=
  State.fbufBytes_congr fun i _ => hfbuf (off + i)

theorem memRead_of_same (off n : Nat) : t.memRead off n = s.memRead off n :=
  State.memRead_congr fun i _ => hfbuf (off + i)

theorem fldU8_of_same (off : Nat) : fldU8 t off = fldU8 s off := by
  rw [fldU8, fldU8, hfbuf off]

theorem fldS16_of_same (off : Nat) : fldS16 t off = fldS16 s off := by
  rw [fldS16, fldS16, memRead_of_same hfbuf]

theorem fldU64_of_same (off : Nat) : fldU64 t off = fldU64 s off := by
  rw [fldU64, fldU64, memRead_of_same hfbuf]

theorem f32Pattern_of_same (off : Nat) : f32Pattern t off = f32Pattern s off :=
  memRead_of_same hfbuf off 4

theorem fldF32_of_same (off : Nat) : fldF32 t off = fldF32 s off := by
  rw [fldF32, fldF32, f32Pattern_of_same hfbuf]

theorem rowSlot_of_same (row : FieldRow) : rowSlot t row = rowSlot s row := by
  unfold rowSlot fieldSlot
  cases row.kind with
  | u8 => exact fldU8_of_same hfbuf _
  | u64 => exact fldU64_of_same hfbuf _
  | s16 => exact fldS16_of_same hfbuf _
  | f32 => exact fldF32_of_same hfbuf _

/-- The record is a function of FBUF's bytes (rule R25). -/
theorem recordOf_of_same : recordOf t = recordOf s := by
  have hrow : rowSlot t = rowSlot s := funext (rowSlot_of_same hfbuf)
  simp only [recordOf, hrow]

/-- DECODE's verdict is a function of FBUF's bytes and BUFLEN (rule R25). -/
theorem rejectCause_of_same (hbuflen : t.buflen = s.buflen) : rejectCause t = rejectCause s := by
  have hcrc : frameCrc t = frameCrc s := by rw [frameCrc, frameCrc, fbufBytes_of_same hfbuf]
  unfold rejectCause
  rw [hbuflen, hfbuf, hfbuf, hfbuf, hcrc]

end

/-! ### The same result, or both kept -/

theorem sameOrKept_of_same {c : Col} {s₁ s₂ t₁ t₂ : State} (h : c.Same t₁ t₂) :
    SameOrKept c s₁ s₂ t₁ t₂ := by
  cases c with
  | fbuf => exact fun a => .inl (h a)
  | _ => exact .inl h

theorem sameOrKept_of_kept {c : Col} {s₁ s₂ t₁ t₂ : State} (h₁ : c.Same s₁ t₁) (h₂ : c.Same s₂ t₂) :
    SameOrKept c s₁ s₂ t₁ t₂ := by
  cases c with
  | fbuf => exact fun a => .inr ⟨h₁ a, h₂ a⟩
  | _ => exact .inr ⟨h₁, h₂⟩

/-- PUSH stores at BUFLEN and counts by BUFLEN: its effect depends on BUFLEN alone. -/
theorem sameOrKept_push {s₁ s₂ : State} (b : Byte) (hbuflen : s₂.buflen = s₁.buflen) {c : Col}
    (hc : c ∈ writtenCols (.push b)) :
    SameOrKept c s₁ s₂ (effect (.push b) s₁) (effect (.push b) s₂) := by
  simp only [writtenCols, List.mem_cons, List.not_mem_nil, or_false] at hc
  rcases hc with rfl | rfl
  · intro a
    simp only [effect, fbufByte_countPushed, fbufByte_storePushed, hbuflen]
    split
    · exact .inl rfl
    · exact .inr ⟨rfl, rfl⟩
  · refine sameOrKept_of_same (BitVec.eq_of_toNat_eq ?_)
    simp only [effect, countPushed_toNat, storePushed_buflen, hbuflen]

/-- DECODE's verdict and record depend on FBUF and BUFLEN alone; a rejected frame keeps REC. -/
theorem sameOrKept_decode {s₁ s₂ : State} (hfbuf : Col.fbuf.Same s₁ s₂)
    (hbuflen : s₂.buflen = s₁.buflen) {c : Col} (hc : c ∈ writtenCols .decode) :
    SameOrKept c s₁ s₂ (effect .decode s₁) (effect .decode s₂) := by
  simp only [effect, decodeEffect, rejectCause_of_same hfbuf hbuflen]
  simp only [writtenCols, List.mem_cons, List.not_mem_nil, or_false] at hc
  split
  · rcases hc with rfl | rfl
    · exact sameOrKept_of_same rfl
    · exact sameOrKept_of_same (recordOf_of_same hfbuf)
  · rcases hc with rfl | rfl
    · exact sameOrKept_of_same rfl
    · exact sameOrKept_of_kept rfl rfl

/-- A legal command writes the same from two states that agree on the columns it reads. -/
theorem sameOrKept_written {i : Instr} {s₁ s₂ : State} (hread : ∀ c ∈ readCols i, c.Same s₁ s₂)
    {c : Col} (hc : c ∈ writtenCols i) : SameOrKept c s₁ s₂ (effect i s₁) (effect i s₂) := by
  cases i with
  | nop => exact absurd hc List.not_mem_nil
  | clear =>
    refine sameOrKept_of_same ?_
    cases c with
    | fbuf | record => simp [writtenCols] at hc
    | errs => exact ⟨rfl, rfl⟩
    | _ => rfl
  | push b => exact sameOrKept_push b (hread .buflen (by simp [readCols])) hc
  | crcinit =>
    obtain rfl := List.mem_singleton.mp hc
    exact sameOrKept_of_same rfl
  | crcbyte b =>
    have hcrc : s₂.crc = s₁.crc := hread .crc (by simp [readCols])
    obtain rfl := List.mem_singleton.mp hc
    exact sameOrKept_of_same (congrArg (crc8Update · b) hcrc)
  | crcrange off cnt =>
    have hcrc : s₂.crc = s₁.crc := hread .crc (by simp [readCols])
    have hbytes := fbufBytes_of_same (hread .fbuf (by simp [readCols])) off cnt
    obtain rfl := List.mem_singleton.mp hc
    exact sameOrKept_of_same (congrArg₂ crc8From hcrc hbytes)
  | crcchk off =>
    have hcrc : s₂.crc = s₁.crc := hread .crc (by simp [readCols])
    have hbyte : s₂.fbufByte off = s₁.fbufByte off := hread .fbuf (by simp [readCols]) off
    obtain rfl := List.mem_singleton.mp hc
    exact sameOrKept_of_same (congrArg₂ (· == ·) hcrc hbyte)
  | ldu8 off =>
    obtain rfl := List.mem_singleton.mp hc
    exact sameOrKept_of_same (fldU8_of_same (hread .fbuf (by simp [readCols])) off)
  | lds16 off =>
    obtain rfl := List.mem_singleton.mp hc
    exact sameOrKept_of_same (fldS16_of_same (hread .fbuf (by simp [readCols])) off)
  | ldu64 off =>
    obtain rfl := List.mem_singleton.mp hc
    exact sameOrKept_of_same (fldU64_of_same (hread .fbuf (by simp [readCols])) off)
  | ldf32 off =>
    have hfbuf := hread .fbuf (by simp [readCols])
    simp only [writtenCols, List.mem_cons, List.not_mem_nil, or_false] at hc
    rcases hc with rfl | rfl
    · exact sameOrKept_of_same (fldF32_of_same hfbuf off)
    · exact sameOrKept_of_same (congrArg fclassOf (f32Pattern_of_same hfbuf off))
  | decode =>
    exact sameOrKept_decode (hread .fbuf (by simp [readCols])) (hread .buflen (by simp [readCols])) hc

/-- Settles O46: a column that is not written is kept, a written one depends on the read columns. -/
theorem readWriteMatrixHolds : Obligations.ReadWriteMatrixHolds := by
  constructor
  · intro i s t h
    rcases exec_cases h with ⟨hr, rfl⟩ | ⟨hr, rfl⟩
    · exact ⟨fun _ => sameExcept_effect i s, fun hn => absurd hr hn⟩
    · exact ⟨fun hl => absurd hl hr, fun _ => sameExcept_cmdError s .range⟩
  · intro i s₁ s₂ t₁ t₂ hr h₁ h₂ hread c
    obtain rfl : effect i s₁ = t₁ := Host.Outcome.next.inj ((exec_of_rangeLegal hr s₁).symm.trans h₁)
    obtain rfl : effect i s₂ = t₂ := Host.Outcome.next.inj ((exec_of_rangeLegal hr s₂).symm.trans h₂)
    by_cases hc : c ∈ writtenCols i
    · exact sameOrKept_written hread hc
    · exact sameOrKept_of_kept ((sameExcept_effect i s₁).1 c hc) ((sameExcept_effect i s₂).1 c hc)

/-! ### DECODE twice -/

/-- An accepted frame is accepted again, into the same state. -/
theorem decodeEffect_acceptFrame {s : State} (h : rejectCause s = none) :
    decodeEffect (acceptFrame s) = acceptFrame s := by
  have hfbuf : Col.fbuf.Same s (acceptFrame s) := fun _ => rfl
  have hcause : rejectCause (acceptFrame s) = none := (rejectCause_of_same hfbuf rfl).trans h
  rw [decodeEffect, if_pos hcause]
  show ((acceptFrame s).setRecord (recordOf (acceptFrame s))).setStatus _ = _
  rw [recordOf_of_same hfbuf]
  rfl

/-- A rejected frame is rejected again, into the same state. -/
theorem decodeEffect_rejectFrame {s : State} (h : rejectCause s ≠ none) :
    decodeEffect (rejectFrame s) = rejectFrame s := by
  have hcause : rejectCause (rejectFrame s) = rejectCause s :=
    rejectCause_of_same (fun _ => rfl) rfl
  rw [decodeEffect, if_neg (hcause ▸ h)]
  rfl

/-- Settles O34, by DECODE's two outcomes. -/
theorem decodeIsIdempotent : Obligations.DecodeIsIdempotent := by
  intro s t h
  rcases execDecode_cases h with ⟨hc, rfl⟩ | ⟨hc, rfl⟩
  · exact ⟨sameExcept_acceptFrame s, fun hv => Bool.noConfusion hv,
      (execDecode_eq _).trans (congrArg _ (decodeEffect_acceptFrame hc))⟩
  · exact ⟨(sameExcept_rejectFrame s).mono (by simp), fun _ => sameExcept_rejectFrame s,
      (execDecode_eq _).trans (congrArg _ (decodeEffect_rejectFrame hc))⟩

end Sys2Proof.Machine
end

section
/-! PROOFS. Which step changes which column: only PUSH writes FBUF, only DECODE and a reset write REC, only
commands and a reset change the block (rules R15, R22, R149, R160). -/

namespace Sys2Proof.Machine

open Sys2Proof.Claims

/-! ### The step at each item -/

/-- Settles O7: the step's rule at a command word, with the accepted state written out. -/
theorem stepRunsTheDecodedCommand : Obligations.StepRunsTheDecodedCommand :=
  fun _ _ _ _ hp hd => step_command hp hd

/-- An opcode-table word that names a command decodes to it. -/
theorem decode_tableWord {n : Nat} {i : Instr} (h : decodeTableWord 32 n = some i) :
    decode (tableWord 32 n) = .ok i := by
  rw [decodeTableWord, if_pos (Nat.le_refl 32)] at h
  cases hd : decode (tableWord 32 n) with
  | ok j => rw [hd] at h; exact congrArg _ (Option.some.inj h)
  | error e => rw [hd] at h; cases h

/-- Settles O8: the placed word is the next item. -/
theorem fetchedWordRunsNext : Obligations.FetchedWordRunsNext :=
  fun s n _ h => step_command (s := s.withFetchWord 32 n) rfl (decode_tableWord h)

/-- A step at a reset is the reset event. -/
theorem step_reset {s : State} {rest : List HostItem} (hp : s.pending = .reset :: rest) :
    step s = .next (s.resetEvent.setPending rest) :=
  step_item hp

/-- A record of zeros reads 0 in every slot, and beyond them. -/
theorem recSlot_of_zeroRecord {s : State} (h : s.record = zeroRecord) (k : Nat) :
    s.recSlot k = 0#64 := by
  rw [State.recSlot, h, zeroRecord, Vector.toList_replicate, List.getD_eq_getElem?_getD,
    List.getElem?_replicate]
  split <;> rfl

theorem Status.word_zero : Status.zero.word = 0#32 := by decide

/-- Settles O49, at a reset event and after power-up. -/
theorem resetSetsTheResetValues : Obligations.ResetSetsTheResetValues := by
  refine ⟨fun s rest hp => ⟨_, step_reset hp, ?_, rfl, rfl, rfl⟩, ?_, fun _ _ => rfl⟩
  · exact ⟨Status.word_zero, rfl, rfl, rfl, rfl, recSlot_of_zeroRecord rfl, fun _ => rfl⟩
  · exact ⟨Status.word_zero, rfl, rfl, rfl, rfl, recSlot_of_zeroRecord rfl, fun _ => rfl⟩

/-! ### What a step changes -/

/-- Settles O10: an idle step and a read leave the block as it is. -/
theorem onlyCommandsAndResetChangeTheBlock : Obligations.OnlyCommandsAndResetChangeTheBlock := by
  intro s t h hne
  rcases step_cases h with ⟨-, rfl⟩ | ⟨w, _, rest, hp, -⟩ | ⟨w, _, rest, hp, -⟩ |
    ⟨addr, rest, -, rfl⟩ | ⟨rest, hp, -⟩
  · exact absurd ⟨fun c => Col.Same.refl c t, rfl⟩ hne
  · exact .inl ⟨w, rest, hp⟩
  · exact .inl ⟨w, rest, hp⟩
  · exact absurd (sameBlock_returnWord s _ rest) hne
  · exact .inr ⟨rest, hp⟩

/-- Accepting a command word leaves every column. -/
theorem same_accept (c : Col) (s : State) (rest : List HostItem) : c.Same s (s.accept rest) := by
  cases c with
  | fbuf => exact fun _ => rfl
  | errs => exact ⟨rfl, rfl⟩
  | _ => rfl

/-- A column other than the error bits is changed only by a legal command that writes it, or by a reset. -/
theorem step_changes_col {s t : State} {c : Col} (h : step s = .next t) (hc : ¬ c.Same s t)
    (herrs : c ≠ .errs) :
    (∃ w i rest, s.pending = .command w :: rest ∧ decode w = .ok i ∧ c ∈ writtenCols i ∧
        t = effect i (s.accept rest)) ∨
      (∃ rest, s.pending = .reset :: rest ∧ t = s.resetEvent.setPending rest) := by
  have herror : ∀ (rest : List HostItem) (e : CmdError), c.Same s ((s.accept rest).cmdError e) :=
    fun rest e => (same_accept c s rest).trans ((sameExcept_cmdError _ e).1 c (by simpa using herrs))
  rcases step_cases h with ⟨-, rfl⟩ | ⟨w, i, rest, hp, hd, he⟩ | ⟨w, e, rest, -, -, rfl⟩ |
    ⟨addr, rest, -, rfl⟩ | ⟨rest, hp, rfl⟩
  · exact absurd (Col.Same.refl c t) hc
  · rcases exec_cases he with ⟨-, rfl⟩ | ⟨-, rfl⟩
    · refine .inl ⟨w, i, rest, hp, hd, ?_, rfl⟩
      by_contra hw
      exact hc ((same_accept c s rest).trans ((sameExcept_effect i _).1 c hw))
    · exact absurd (herror rest .range) hc
  · exact absurd (herror rest .illegal) hc
  · exact absurd ((sameBlock_returnWord s _ rest).1 c) hc
  · exact .inr ⟨rest, hp, rfl⟩

/-! ### FBUF -/

/-- PUSH is the only command that writes FBUF. -/
theorem push_of_writes_fbuf {i : Instr} (h : .fbuf ∈ writtenCols i) : ∃ b, i = .push b := by
  cases i with
  | push b => exact ⟨b, rfl⟩
  | _ => simp [writtenCols] at h

/-- PUSH changes at most the byte at BUFLEN, while that is below 64. -/
theorem effect_push_changes {s : State} {b : Byte} {a : Nat}
    (h : (effect (.push b) s).fbufByte a ≠ s.fbufByte a) :
    a = s.buflen.toNat ∧ a < 64 ∧ (effect (.push b) s).fbufByte a = b := by
  simp only [effect, fbufByte_countPushed, fbufByte_storePushed] at h ⊢
  split at h
  · next hroom => exact ⟨hroom.2, hroom.2 ▸ hroom.1, if_pos hroom⟩
  · exact absurd rfl h

/-- Settles O48: only PUSH has FBUF marked W, and a reset keeps it. -/
theorem onlyPushWritesTheFrameBuffer : Obligations.OnlyPushWritesTheFrameBuffer := by
  intro s t a h hne
  rcases step_changes_col (c := .fbuf) h (fun hsame => hne (hsame a)) (by decide) with
    ⟨w, i, rest, hp, hd, hw, rfl⟩ | ⟨rest, -, rfl⟩
  · obtain ⟨b, rfl⟩ := push_of_writes_fbuf hw
    exact ⟨w, b, rest, hp, hd, effect_push_changes (s := s.accept rest) hne⟩
  · exact absurd rfl hne

/-! ### REC -/

/-- DECODE is the only command that writes REC. -/
theorem decode_of_writes_record {i : Instr} (h : .record ∈ writtenCols i) : i = .decode := by
  cases i with
  | decode => rfl
  | _ => simp [writtenCols] at h

/-- A word that decodes matches a row of the opcode map, which builds the command (rules R55, R56). -/
theorem exists_row_of_decode {w : Word} {i : Instr} (h : decode w = .ok i) :
    ∃ r ∈ opcodeTable, r.matchesWord w = true ∧ r.build w = i := by
  unfold decode at h
  split at h
  · next r hfind =>
    exact ⟨r, List.mem_of_find?_eq_some hfind, List.find?_some (p := fun r : OpRow => r.matchesWord w) hfind,
      Except.ok.inj h⟩
  · cases h

/-- The DECODE word is 0x00000030 (rule R55). -/
theorem eq_of_decode_eq_decode {w : Word} (h : decode w = .ok .decode) : w = 0x00000030#32 := by
  obtain ⟨r, hr, hmatch, hbuild⟩ := exists_row_of_decode h
  simp only [opcodeTable, List.mem_cons, List.not_mem_nil, or_false] at hr
  rcases hr with rfl | rfl | rfl | rfl | rfl | rfl | rfl | rfl | rfl | rfl | rfl | rfl
  on_goal 12 =>
    have hmask : w &&& BitVec.allOnes 32 = 0x00000030#32 := eq_of_beq hmatch
    rwa [BitVec.and_allOnes] at hmask
  all_goals exact Instr.noConfusion hbuild

/-- The little-endian value of a run of frame bytes is the field's (rule R37). -/
theorem leNat_fbufBytes (s : State) (off n : Nat) :
    Source.leNat (s.fbufBytes off n) = (s.memRead off n).toNat := by
  induction n generalizing off with
  | zero => rfl
  | succ n ih => rw [State.memRead_succ_toNat, State.fbufBytes, Source.leNat, ih]

/-- A run of bytes inside the frame, cut from the whole of it. -/
theorem take_drop_frame (s : State) {off n : Nat} (h : off + n ≤ 64) :
    (s.frame.drop off).take n = s.fbufBytes off n := by
  have hframe : s.frame =
      s.fbufBytes 0 off ++ (s.fbufBytes (0 + off) n ++ s.fbufBytes (0 + off + n) (64 - off - n)) := by
    rw [← State.fbufBytes_append, ← State.fbufBytes_append, State.frame]
    congr 1
    omega
  rw [hframe, List.drop_left' (by simp), List.take_left' (by simp), Nat.zero_add]

/-- The source's unsigned field is the field read little-endian. -/
theorem unsignedAt_frame (s : State) {off n : Nat} (h : off + n ≤ 64) :
    Source.unsignedAt s.frame off n = (s.memRead off n).toNat := by
  rw [Source.unsignedAt, take_drop_frame s h, leNat_fbufBytes]

/-- One byte, read little-endian. -/
theorem memRead_one (s : State) (off : Nat) : s.memRead off 1 = s.fbufByte off :=
  BitVec.eq_of_toNat_eq (by rw [State.memRead_succ_toNat]; rfl)

/-! The source's slots are the block's fields (rule R95), at any offset where they lie in the frame. -/

theorem unsignedSlot_frame (s : State) {off n : Nat} (h : off + n ≤ 64) :
    Source.unsignedSlot s.frame off n = zext64 (s.memRead off n) := by
  rw [Source.unsignedSlot, unsignedAt_frame s h, zext64, BitVec.ofNat_toNat]

theorem unsignedSlot_frame_one (s : State) {off : Nat} (h : off + 1 ≤ 64) :
    Source.unsignedSlot s.frame off 1 = fldU8 s off := by
  rw [unsignedSlot_frame s h, memRead_one, fldU8]

theorem unsignedSlot_frame_four (s : State) {off : Nat} (h : off + 4 ≤ 64) :
    Source.unsignedSlot s.frame off 4 = fldF32 s off :=
  unsignedSlot_frame s h

theorem unsignedSlot_frame_eight (s : State) {off : Nat} (h : off + 8 ≤ 64) :
    Source.unsignedSlot s.frame off 8 = fldU64 s off :=
  unsignedSlot_frame s h

theorem signedSlot_frame (s : State) {off : Nat} (h : off + 2 ≤ 64) :
    Source.signedSlot s.frame off = fldS16 s off := by
  have hint : Source.signed16At s.frame off = (s.memRead off 2).toInt := by
    rw [Source.signed16At, unsignedAt_frame s h, BitVec.toInt_eq_toNat_cond]
    split_ifs <;> omega
  rw [Source.signedSlot, hint]
  rfl

/-- The record DECODE writes is the source's record of the frame (rules R116, R121). -/
theorem recordOf_toList (s : State) : (recordOf s).toList = Source.record s.frame := by
  show recordTable.map (rowSlot s) = _
  simp [recordTable, rowSlot, fieldSlot, Source.record, unsignedSlot_frame_one,
    unsignedSlot_frame_four, unsignedSlot_frame_eight, signedSlot_frame]

/-- DECODE changes REC only when it accepts. -/
theorem decodeEffect_of_record_ne {s : State} (h : (decodeEffect s).record ≠ s.record) :
    decodeEffect s = acceptFrame s := by
  unfold decodeEffect at h ⊢
  split at h
  · next hc => exact if_pos hc
  · exact absurd rfl h

/-- Settles O47: only DECODE has REC marked W, and it writes it only when it accepts. -/
theorem onlyAnAcceptingDecodeWritesTheRecord : Obligations.OnlyAnAcceptingDecodeWritesTheRecord := by
  intro s t h hne
  rcases step_changes_col (c := .record) h hne (by decide) with
    ⟨w, i, rest, hp, hd, hw, rfl⟩ | ⟨rest, hp, rfl⟩
  · obtain rfl := decode_of_writes_record hw
    obtain rfl := eq_of_decode_eq_decode hd
    have haccept : effect .decode (s.accept rest) = acceptFrame (s.accept rest) :=
      decodeEffect_of_record_ne hne
    have hframe : (s.accept rest).frame = s.frame := fbufBytes_of_same (fun _ => rfl) 0 64
    rw [haccept]
    exact .inl ⟨rest, hp, rfl, (recordOf_toList _).trans (congrArg Source.record hframe)⟩
  · exact .inr ⟨rest, hp, recSlot_of_zeroRecord rfl⟩

end Sys2Proof.Machine
end

section
/-! PROOFS. The read port returns the register map and changes nothing (rules R26, R27, R41). -/

namespace Sys2Proof.Machine

open Sys2Proof.Claims

/-! ### Addresses -/

/-- The port drops address bits 1:0 (rule R27). -/
theorem wordAddress_eq (addr : ReadAddr) : wordAddress addr = addr.toNat / 4 * 4 := by
  have hlt := addr.isLt
  have hdiv : (addr.toNat &&& 1020) / 2 ^ 2 = addr.toNat / 4 := by
    rw [Nat.and_div_two_pow, show 1020 / 2 ^ 2 = 2 ^ 8 - 1 by decide, Nat.and_two_pow_sub_one_eq_mod]
    omega
  have hmod : (addr.toNat &&& 1020) % 2 ^ 2 = 0 := by
    rw [Nat.and_mod_two_pow, show 1020 % 2 ^ 2 = 0 by decide, Nat.and_zero]
  have hand : wordAddress addr = addr.toNat &&& 1020 := BitVec.toNat_and addr 0x3FC#10
  omega

theorem readWord_eq (s : State) (addr : ReadAddr) : readWord s addr = readAt s (addr.toNat / 4 * 4) := by
  rw [readWord, wordAddress_eq]

/-- Reading at an address and at its word address is the same. -/
theorem readWord_and (s : State) (addr : ReadAddr) :
    readWord s (addr &&& 0x3FC#10) = readWord s addr := by
  rw [readWord, readWord, wordAddress, wordAddress, BitVec.and_assoc, BitVec.and_self]

/-! ### The rows of the register map -/

theorem readAt_record (s : State) {a : Nat} (h : 0x100 ≤ a ∧ a < 0x190) :
    readAt s a = if (a - 0x100) % 8 < 4 then slotLo (s.recSlot ((a - 0x100) / 8))
      else slotHi (s.recSlot ((a - 0x100) / 8)) := by
  rw [readAt, if_neg (by omega), if_neg (by omega), if_neg (by omega), if_neg (by omega),
    if_neg (by omega), if_neg (by omega), if_pos h]

theorem readAt_recLo (s : State) {k : Nat} (hk : k < 18) :
    readAt s (0x100 + 8 * k) = slotLo (s.recSlot k) := by
  have hslot : (0x100 + 8 * k - 0x100) / 8 = k := by omega
  rw [readAt_record s (by omega), if_pos (by omega), hslot]

theorem readAt_recHi (s : State) {k : Nat} (hk : k < 18) :
    readAt s (0x104 + 8 * k) = slotHi (s.recSlot k) := by
  have hslot : (0x104 + 8 * k - 0x100) / 8 = k := by omega
  rw [readAt_record s (by omega), if_neg (by omega), hslot]

theorem readAt_window (s : State) {j : Nat} (hj : j < 16) : readAt s (0x200 + 4 * j) = fbufWord s j := by
  have hword : (0x200 + 4 * j - 0x200) / 4 = j := by omega
  rw [readAt, if_neg (by omega), if_neg (by omega), if_neg (by omega), if_neg (by omega),
    if_neg (by omega), if_neg (by omega), if_neg (by omega), if_pos (by omega), hword]

/-- A word address that is no row of the map reads 0. -/
theorem readAt_unmapped (s : State) {a : Nat} (ha : a % 4 = 0) (hm : ¬ Mapped a) : readAt s a = 0#32 := by
  simp only [Mapped, List.mem_cons, List.not_mem_nil, or_false, not_or] at hm
  obtain ⟨⟨h0, h4, h8, hC, h10, h14⟩, hrec, hwin⟩ := hm
  have hrec' : ¬ (0x100 ≤ a ∧ a < 0x190) := fun h => hrec ⟨(a - 0x100) / 8, by omega, by omega⟩
  have hwin' : ¬ (0x200 ≤ a ∧ a < 0x240) := fun h => hwin ⟨(a - 0x200) / 4, by omega, by omega⟩
  rw [readAt, if_neg h0, if_neg h4, if_neg h8, if_neg hC, if_neg h10, if_neg h14, if_neg hrec',
    if_neg hwin']

/-- After power-up every word outside the FBUF window is 0 (rule R33). -/
theorem readAt_reset {a : Nat} (h : ¬ (0x200 ≤ a ∧ a < 0x240)) : readAt State.reset a = 0#32 := by
  have hslot : ∀ k, State.reset.recSlot k = 0#64 := recSlot_of_zeroRecord rfl
  simp only [readAt, if_neg h, hslot]
  split_ifs <;> decide

/-! ### The words as numbers -/

theorem Status.word_toNat (f : Status) :
    f.word.toNat = f.valid.toNat + 2 * f.mtch.toNat + 4 * f.err.toNat + 16 * f.errcode.toNat := by
  obtain ⟨v, m, e, c⟩ := f
  revert v m e c
  decide

theorem slotLo_toNat (v : Slot) : (slotLo v).toNat = v.toNat % 2 ^ 32 := by
  rw [slotLo, BitVec.extractLsb'_toNat, Nat.shiftRight_zero]

theorem slotHi_toNat (v : Slot) : (slotHi v).toNat = v.toNat / 2 ^ 32 := by
  have := v.isLt
  rw [slotHi, BitVec.extractLsb'_toNat, Nat.shiftRight_eq_div_pow]
  omega

/-- The little-endian sum from its lowest byte on. -/
theorem leSum_succ (s : State) (off n : Nat) :
    leSum s off (n + 1) = (s.fbufByte off).toNat + 256 * leSum s (off + 1) n := by
  have hterm : ∀ i, (s.fbufByte (off + (i + 1))).toNat * 256 ^ (i + 1) =
      256 * ((s.fbufByte (off + 1 + i)).toNat * 256 ^ i) := fun i => by
    rw [show off + (i + 1) = off + 1 + i by omega, Nat.pow_succ]
    ring
  simp only [leSum, List.range_succ_eq_map, List.map_cons, List.map_map, List.sum_cons,
    Function.comp_def, Nat.succ_eq_add_one, hterm, List.sum_map_mul_left]
  simp

/-- A little-endian read is the sum of rule R37. -/
theorem memRead_toNat (s : State) (off n : Nat) : (s.memRead off n).toNat = leSum s off n := by
  induction n generalizing off with
  | zero => rfl
  | succ n ih => rw [State.memRead_succ_toNat, ih, leSum_succ]

/-- A word of the FBUF window is the 4-byte read at its offset (rules R29, R37). -/
theorem fbufWord_eq_memRead (s : State) (j : Nat) : fbufWord s j = s.memRead (4 * j) 4 := by
  show _ = (((0#0 ++ s.fbufByte (4 * j + 3)) ++ s.fbufByte (4 * j + 2)) ++ s.fbufByte (4 * j + 1)) ++
    s.fbufByte (4 * j)
  rw [fbufWord, BitVec.zero_width_append]
  rfl

/-! ### The statements -/

/-- Settles O14, by the window's row of the register map. -/
theorem windowWordIsMemRead : Obligations.WindowWordIsMemRead := by
  intro s j hj
  have haddr : (BitVec.ofNat 10 (0x200 + 4 * j)).toNat / 4 * 4 = 0x200 + 4 * j := by
    rw [BitVec.toNat_ofNat]
    omega
  rw [readWord_eq, haddr, readAt_window s hj, fbufWord_eq_memRead]

/-- The register map at a word address, row by row. -/
theorem mapReturns_readAt (s : State) {a : Nat} (ha : a % 4 = 0) : MapReturns s a (readAt s a).toNat := by
  refine ⟨?status, ?buflen, ?crc, ?fclass, ?resLo, ?resHi, ?recLo, ?recHi, ?window, ?unmapped⟩
  case status => rintro rfl; exact s.status.word_toNat
  case buflen => rintro rfl; exact BitVec.toNat_setWidth_of_le (show 16 ≤ 32 by decide)
  case crc => rintro rfl; exact BitVec.toNat_setWidth_of_le (show 8 ≤ 32 by decide)
  case fclass => rintro rfl; exact BitVec.toNat_setWidth_of_le (show 4 ≤ 32 by decide)
  case resLo => rintro rfl; exact slotLo_toNat s.res
  case resHi => rintro rfl; exact slotHi_toNat s.res
  case recLo => rintro k hk rfl; rw [readAt_recLo s hk, slotLo_toNat]
  case recHi => rintro k hk rfl; rw [readAt_recHi s hk, slotHi_toNat]
  case window => rintro j hj rfl; rw [readAt_window s hj, fbufWord_eq_memRead, memRead_toNat]
  case unmapped => intro hm; rw [readAt_unmapped s ha hm]; rfl

/-- Settles O12, row by row of the register map. -/
theorem readPortReturnsTheRegisterMap : Obligations.ReadPortReturnsTheRegisterMap := by
  refine ⟨fun s addr ha => ?_, fun addr ha => ?_, fun _ _ => rfl⟩
  · rw [readWord_eq, Nat.div_mul_cancel (Nat.dvd_of_mod_eq_zero ha)]
    exact mapReturns_readAt s ha
  · rw [readWord_eq]
    exact readAt_reset (by omega)

/-- The reserved bits of STATUS, bit 3 and bits 31:6, are 0 (rule R21). -/
theorem Status.word_reserved (f : Status) {n : Nat} (hn : n = 3 ∨ 6 ≤ n) :
    f.word.getLsbD n = false := by
  rcases hn with rfl | hn
  · obtain ⟨v, m, e, c⟩ := f
    revert v m e c
    decide
  · have hlt : f.word.toNat < 2 ^ 6 := by
      have := f.valid.toNat_lt
      have := f.mtch.toNat_lt
      have := f.err.toNat_lt
      have := f.errcode.isLt
      rw [Status.word_toNat]
      omega
    exact Nat.testBit_lt_two_pow (hlt.trans_le (Nat.pow_le_pow_right (by decide) hn))

/-- A register narrower than the word reads 0 in the bits above it. -/
theorem setWidth_reserved {w : Nat} (v : BitVec w) (m : Nat) {n : Nat} (hn : w ≤ n) :
    (v.setWidth m).getLsbD n = false := by
  rw [BitVec.getLsbD_setWidth, BitVec.getLsbD_of_ge v n hn, Bool.and_false]

/-- Settles O13: by the register map, and since a read only adds to the words returned. -/
theorem readHasNoSideEffect : Obligations.ReadHasNoSideEffect := by
  refine ⟨fun s addr rest hp => ?read, fun s addr hm => ?unmapped, fun s n hn => s.status.word_reserved hn,
    fun s n hn => setWidth_reserved s.buflen 32 hn, fun s n hn => setWidth_reserved s.crc 32 hn,
    fun s n hn => setWidth_reserved s.fclass 32 hn⟩
  case read =>
    rw [readWord_and]
    exact ⟨_, step_read hp, sameBlock_returnWord s _ rest, rfl, rfl, rfl⟩
  case unmapped =>
    have haddr : (addr &&& 0x3FC#10).toNat = addr.toNat / 4 * 4 := wordAddress_eq addr
    rw [haddr] at hm
    rw [readWord_eq]
    exact readAt_unmapped s (Nat.mul_mod_left _ 4) hm

end Sys2Proof.Machine
end

section
/-! PROOFS. Multi-byte fields: their value is the little-endian sum, and reads of different widths at one
offset agree (rules R37, R40). -/

namespace Sys2Proof.Machine

open Sys2Proof.Claims

/-- Settles O15, by the read's value byte by byte. -/
theorem memReadIsTheLittleEndianSum : Obligations.MemReadIsTheLittleEndianSum := memRead_toNat

/-- A longer read is the shorter one, with the bytes after it above (rule R37). -/
theorem memRead_add_toNat (s : State) (off m k : Nat) :
    (s.memRead off (m + k)).toNat =
      (s.memRead off m).toNat + 2 ^ (8 * m) * (s.memRead (off + m) k).toNat := by
  induction m generalizing off with
  | zero =>
    rw [Nat.zero_add]
    simp [State.memRead]
  | succ m ih =>
    have hoff : off + 1 + m = off + (m + 1) := by omega
    rw [Nat.add_right_comm, State.memRead_succ_toNat, State.memRead_succ_toNat, ih, hoff, Nat.mul_succ,
      Nat.pow_add]
    ring

/-- The low `8m` bits of a read are the `m`-byte read at the same offset (rule R40). -/
theorem memRead_setWidth (s : State) (off : Nat) {m n : Nat} (h : m ≤ n) :
    (s.memRead off n).setWidth (8 * m) = s.memRead off m := by
  obtain ⟨k, rfl⟩ := Nat.exists_eq_add_of_le h
  apply BitVec.eq_of_toNat_eq
  rw [BitVec.toNat_setWidth, memRead_add_toNat, Nat.add_mul_mod_self_left,
    Nat.mod_eq_of_lt (s.memRead off m).isLt]

/-- Sign extension keeps the bits it extends. -/
theorem setWidth_sext64 {w m : Nat} (v : BitVec w) (hm : m ≤ w) (hw : w ≤ 64) :
    (sext64 v).setWidth m = v.setWidth m := by
  ext i hi
  have hiw : i < w := by omega
  have hi64 : i < 64 := by omega
  simp [sext64, BitVec.getElem_signExtend, hiw, hi64]

/-- The low byte of an unsigned byte field is the byte at its offset. -/
theorem setWidth_fldU8 (s : State) (off : Nat) : (fldU8 s off).setWidth 8 = s.fbufByte off := by
  rw [fldU8, zext64, BitVec.setWidth_setWidth_of_le _ (by decide), BitVec.setWidth_eq]

/-- The low byte of a signed 16-bit field is the byte at its offset. -/
theorem setWidth_fldS16 (s : State) (off : Nat) : (fldS16 s off).setWidth 8 = s.fbufByte off := by
  rw [fldS16, setWidth_sext64 _ (show 8 ≤ 8 * 2 by decide) (by decide), ← memRead_one]
  exact memRead_setWidth s off (show 1 ≤ 2 by decide)

/-- Settles O16: a wider read only adds bytes above, and both loads leave the byte at `off` lowest. -/
theorem mixedWidthReadsAgree : Obligations.MixedWidthReadsAgree := by
  refine ⟨fun s off m n h => memRead_setWidth s off h.le, fun s t u off hoff ht hu => ?_⟩
  have hlegal8 : RangeLegal (.ldu8 off) := Nat.le_succ_of_le hoff
  have hlegal16 : RangeLegal (.lds16 off) := hoff
  rw [exec_of_rangeLegal hlegal8] at ht
  rw [exec_of_rangeLegal hlegal16] at hu
  obtain rfl := Host.Outcome.next.inj ht
  obtain rfl := Host.Outcome.next.inj hu
  exact (setWidth_fldU8 s off).trans (setWidth_fldS16 s off).symm

end Sys2Proof.Machine
end

section
/-! PROOFS. The encoding: a word decodes to a command exactly when it is the word of that command and the
operands fit; the numbers the four classes build; and the words that are no command (rules R52 to R62). -/

namespace Sys2Proof.Machine

open Sys2Proof.Claims Sys2Proof.Laws

/-! ### The fields of a command's word -/

/-- The IMM field of a command's word: a data byte, a count, or 0 (rules R53, R54). -/
def immOf (i : Instr) : BitVec 8 :=
  match i with
  | .push imm | .crcbyte imm => imm
  | .crcrange _ cnt => BitVec.ofNat 8 cnt
  | _ => 0

/-- The OFF field of a command's word: an offset, or 0 (rules R53, R54). -/
def offOf (i : Instr) : BitVec 8 :=
  match i with
  | .crcrange off _ | .crcchk off | .ldu8 off | .lds16 off | .ldu64 off | .ldf32 off => BitVec.ofNat 8 off
  | _ => 0

/-- The word of a well-formed command, field by field; RSV is 0 (rule R52). -/
theorem encode_eq_fieldWord {i : Instr} (h : WellFormed i) :
    encode i = fieldWord 0 (immOf i) (offOf i) (opcodeOf i) := by
  cases i with
  | nop | clear | crcinit | decode => exact classN_eq_fieldWord _
  | push imm | crcbyte imm => exact classI_eq_fieldWord _ imm
  | crcrange off cnt => exact classOC_eq_fieldWord _ off cnt h.1 h.2
  | crcchk off | ldu8 off | lds16 off | ldu64 off | ldf32 off => exact classO_eq_fieldWord _ off h

/-- An operand that fits its field is the field's number. -/
theorem toNat_ofNat_of_fitsField {n : Nat} (h : FitsField n) : (BitVec.ofNat 8 n).toNat = n := by
  rw [BitVec.toNat_ofNat, Nat.mod_eq_of_lt (Nat.lt_succ_of_le h)]

/-- A field's number is an operand that fits it. -/
theorem fitsField_toNat (b : BitVec 8) : FitsField b.toNat := Nat.le_of_lt_succ b.isLt

/-! ### Decode and encode are inverse -/

/-- Decoding the word of a well-formed command: the decoder reads back the fields the encoder wrote. -/
theorem decode_encode {i : Instr} (h : WellFormed i) : decode (encode i) = .ok i := by
  rw [encode_eq_fieldWord h, decode_fieldWord]
  cases i with
  | nop | clear | push | crcinit | crcbyte | decode => simp [immOf, offOf, opcodeOf]
  | crcrange off cnt =>
    obtain ⟨hoff, hcnt⟩ := h
    simp [-BitVec.toNat_ofNat, immOf, offOf, opcodeOf, toNat_ofNat_of_fitsField hoff,
      toNat_ofNat_of_fitsField hcnt]
  | crcchk | ldu8 | lds16 | ldu64 | ldf32 =>
    simp [-BitVec.toNat_ofNat, immOf, offOf, opcodeOf, toNat_ofNat_of_fitsField h]

/-- The OP values of the opcode map (rule R55). -/
theorem mem_assignedOps_iff {p : BitVec 8} : p ∈ assignedOps ↔
    p = 0x00#8 ∨ p = 0x01#8 ∨ p = 0x02#8 ∨ p = 0x10#8 ∨ p = 0x11#8 ∨ p = 0x12#8 ∨ p = 0x13#8 ∨
      p = 0x20#8 ∨ p = 0x21#8 ∨ p = 0x22#8 ∨ p = 0x23#8 ∨ p = 0x30#8 := by
  rw [show assignedOps = [0x00#8, 0x01#8, 0x02#8, 0x10#8, 0x11#8, 0x12#8, 0x13#8, 0x20#8, 0x21#8, 0x22#8,
    0x23#8, 0x30#8] by decide]
  simp only [List.mem_cons, List.not_mem_nil, or_false]

/-- A word whose OP is not in the opcode map decodes to no command (rule R57 (a)). -/
theorem decode_fieldWord_of_unassigned {r m o p : BitVec 8} (hp : p ∉ assignedOps) :
    decode (fieldWord r m o p) = .error (illegalWord (fieldWord r m o p)) := by
  simp only [mem_assignedOps_iff, not_or] at hp
  simp only [decode_fieldWord, hp, and_false, if_false]

/-- A row with one condition answers a command exactly when the condition holds. -/
theorem ite_ok_error_eq_ok_iff {ε α : Type} {c : Prop} [Decidable c] {a b : α} {e : ε} :
    (if c then .ok a else .error e : Except ε α) = .ok b ↔ c ∧ a = b := by
  by_cases hc : c <;> simp [hc]

/-- What a decoded word holds: in every row the fields the row does not read are 0, and those it reads are
the command's operands. -/
theorem fields_of_decode_fieldWord {r m o p : BitVec 8} {i : Instr}
    (h : decode (fieldWord r m o p) = .ok i) :
    WellFormed i ∧ r = 0 ∧ m = immOf i ∧ o = offOf i ∧ p = opcodeOf i := by
  have hp : p ∈ assignedOps := by
    by_contra hp
    rw [decode_fieldWord_of_unassigned hp] at h
    cases h
  rw [decode_fieldWord] at h
  rcases mem_assignedOps_iff.1 hp with
    rfl | rfl | rfl | rfl | rfl | rfl | rfl | rfl | rfl | rfl | rfl | rfl
  all_goals
    simp only [BitVec.reduceEq, and_true, and_false, if_false, ite_ok_error_eq_ok_iff] at h
    obtain ⟨hfields, rfl⟩ := h
    simp [hfields, WellFormed, fitsField_toNat, immOf, offOf, opcodeOf]

/-- The decoder and the encoder are inverse: a word decodes to a command exactly when the operands fit and
it is the command's word (rules R55, R56). -/
theorem decode_eq_ok_iff {w : Word} {i : Instr} : decode w = .ok i ↔ WellFormed i ∧ encode i = w := by
  constructor
  · intro h
    rw [← fieldWord_fields w] at h ⊢
    obtain ⟨hwf, hrsv, himm, hoff, hop⟩ := fields_of_decode_fieldWord h
    rw [encode_eq_fieldWord hwf, hrsv, himm, hoff, hop]
    exact ⟨hwf, rfl⟩
  · rintro ⟨hwf, rfl⟩
    exact decode_encode hwf

/-! ### The statements about words -/

/-- Settles O1: the decoder reads back the fields the encoder wrote. -/
theorem decodeOfEncodeIsTheCommand : Obligations.DecodeOfEncodeIsTheCommand :=
  fun _ h => decode_encode h

/-- Settles O2: a decoded word is made of its command's fields. -/
theorem everyCommandWordIsItsEncoding : Obligations.EveryCommandWordIsItsEncoding :=
  fun _ _ h => decode_eq_ok_iff.1 h

/-- Settles O5: each word is the encoding of its command. -/
theorem sampleWordsDecode : Obligations.SampleWordsDecode :=
  ⟨decode_encode (i := .nop) trivial, decode_encode (i := .clear) trivial,
    decode_encode (i := .push 0xA5#8) trivial, decode_encode (i := .crcrange 0 61) (by decide),
    decode_encode (i := .crcchk 61) (by decide), decode_encode (i := .ldf32 14) (by decide),
    decode_encode (i := .decode) trivial⟩

/-- Settles O22: the NOP word is 0, and `exec` of NOP answers the state it is given. -/
theorem nopIsTheZeroWordAndLeavesTheState : Obligations.NopIsTheZeroWordAndLeavesTheState := by
  refine ⟨fun w => ?_, fun _ => rfl⟩
  have hword : encode .nop = 0x00000000#32 := by decide
  rw [decode_eq_ok_iff, hword, true_and, eq_comm]

/-! ### The words of each class as numbers (rule R62) -/

theorem classN_toNat (op : BitVec 8) : (classN op).toNat = op.toNat := by
  simp [classN_eq_fieldWord, fieldWord_toNat]

theorem classI_toNat (op imm : BitVec 8) : (classI op imm).toNat = imm.toNat * 2 ^ 16 + op.toNat := by
  simp [classI_eq_fieldWord, fieldWord_toNat]

theorem classOC_toNat (op : BitVec 8) {off cnt : Nat} (hoff : FitsField off) (hcnt : FitsField cnt) :
    (classOC op off cnt).toNat = cnt * 2 ^ 16 + off * 2 ^ 8 + op.toNat := by
  rw [classOC_eq_fieldWord op off cnt hoff hcnt, fieldWord_toNat, toNat_ofNat_of_fitsField hoff,
    toNat_ofNat_of_fitsField hcnt]
  simp

theorem classO_toNat (op : BitVec 8) {off : Nat} (hoff : FitsField off) :
    (classO op off).toNat = off * 2 ^ 8 + op.toNat := by
  rw [classO_eq_fieldWord op off hoff, fieldWord_toNat, toNat_ofNat_of_fitsField hoff]
  simp

/-- Settles O3: every command's word is its class's, and each class has its number. -/
theorem wordsAreBuiltByClass : Obligations.WordsAreBuiltByClass := by
  refine ⟨fun i op h => ?_, fun imm => ⟨classI_toNat _ imm, classI_toNat _ imm⟩,
    fun off hoff => ⟨classO_toNat _ hoff, classO_toNat _ hoff, classO_toNat _ hoff, classO_toNat _ hoff,
      classO_toNat _ hoff⟩,
    fun off cnt hoff hcnt => classOC_toNat _ hoff hcnt⟩
  simp only [List.mem_cons, List.not_mem_nil, or_false, Prod.mk.injEq] at h
  rcases h with ⟨rfl, rfl⟩ | ⟨rfl, rfl⟩ | ⟨rfl, rfl⟩ | ⟨rfl, rfl⟩
  all_goals exact classN_toNat _

/-! ### The assembler's examples (rule R61) -/

/-- Settles O6, by running the assembler on the seven lines. -/
theorem assemblerExamples : Obligations.AssemblerExamples := by
  unfold Obligations.AssemblerExamples
  decide

/-! ### Illegal words (rule R57) -/

/-- The OP values outside the opcode map are the four ranges of rule R57 (a). -/
theorem not_mem_assignedOps_iff {p : BitVec 8} : p ∉ assignedOps ↔
    (0x03 ≤ p.toNat ∧ p.toNat ≤ 0x0F) ∨ (0x14 ≤ p.toNat ∧ p.toNat ≤ 0x1F) ∨
      (0x24 ≤ p.toNat ∧ p.toNat ≤ 0x2F) ∨ 0x31 ≤ p.toNat := by
  simp only [mem_assignedOps_iff, ← BitVec.toNat_inj, BitVec.toNat_ofNat]
  omega

/-- A word is illegal exactly when it is no command. -/
theorem isIllegal_iff {w : Word} : IsIllegal w ↔ ¬ ∃ i, decode w = .ok i := by
  unfold IsIllegal
  cases decode w <;> simp

/-- The illegal words by fields: an OP in the opcode map leaves the one condition of its row. -/
theorem isIllegal_fieldWord_iff (r m o p : BitVec 8) : IsIllegal (fieldWord r m o p) ↔
    p ∉ assignedOps ∨ r ≠ 0 ∨
      (p ∈ [0x00#8, 0x01#8, 0x10#8, 0x30#8] ∧ (o ≠ 0 ∨ m ≠ 0)) ∨
      (p ∈ [0x02#8, 0x11#8] ∧ o ≠ 0) ∨
      (p ∈ [0x13#8, 0x20#8, 0x21#8, 0x22#8, 0x23#8] ∧ m ≠ 0) := by
  by_cases hp : p ∈ assignedOps
  · rw [isIllegal_iff, decode_fieldWord]
    simp only [hp, not_true, false_or]
    rcases mem_assignedOps_iff.1 hp with
      rfl | rfl | rfl | rfl | rfl | rfl | rfl | rfl | rfl | rfl | rfl | rfl
    all_goals
      simp only [BitVec.reduceEq, and_true, and_false, if_false, ite_ok_error_eq_ok_iff, exists_and_left,
        exists_eq', List.mem_cons, List.not_mem_nil, or_false, or_true, true_and, false_and, false_or]
      tauto
  · exact iff_of_true ⟨_, decode_fieldWord_of_unassigned hp⟩ (.inl hp)

/-- Raising a command error has the error's effect and no other (rule R137). -/
theorem isErrorOf_cmdError (s : State) (c : CmdError) : IsErrorOf c.code.toNat s (s.cmdError c) := by
  refine ⟨?_, fun herr => ?_, fun herr => ?_, sameExcept_cmdError s c⟩
  · simp [State.cmdError]
  · simp [State.cmdError, herr]
  · simp [State.cmdError, herr]

/-- A step at an illegal word is an ILLEGAL command error at the state that has accepted it. -/
theorem step_illegal {s : State} {w : Word} {rest : List HostItem} (hp : s.pending = .command w :: rest)
    (hw : IsIllegal w) : step s = .next ((s.accept rest).cmdError .illegal) := by
  obtain ⟨e, he⟩ := hw
  rw [step_item hp]
  simp only [takeItem, runCommand, he]

/-- Settles O4: the illegal words by their fields, and the step that takes one. -/
theorem illegalWordsAreExactlyTheThreeKinds : Obligations.IllegalWordsAreExactlyTheThreeKinds := by
  refine ⟨fun w => ?_, fun s w rest hp hw => ⟨_, step_illegal hp hw, isErrorOf_cmdError _ .illegal⟩⟩
  rw [← not_mem_assignedOps_iff, ← isIllegal_fieldWord_iff, fieldWord_fields]

end Sys2Proof.Machine
end

section
/-! PROOFS. The CRC-8 is the source's loop on numbers (rules R80, R81). -/

namespace Sys2Proof.Machine

/-- One repetition: a shift of 8 bits is the source's shift and mask, bit 7 the one it tests. -/
theorem crc8Shift_toNat (c : Byte) : (crc8Shift c).toNat = Source.crcShift c.toNat := by
  have hshift : (c <<< 1).toNat = (c.toNat <<< 1) &&& 0xFF := by
    rw [BitVec.toNat_shiftLeft]
    exact (Nat.and_two_pow_sub_one_eq_mod _ 8).symm
  have hbit : c.getLsbD 7 = c.toNat.testBit 7 := rfl
  rw [crc8Shift, Source.crcShift, hbit]
  split
  · rw [BitVec.toNat_xor, hshift]
    rfl
  · exact hshift

theorem crc8Update_toNat (c b : Byte) : (crc8Update c b).toNat = Source.crcUpdate c.toNat b.toNat := by
  simp only [crc8Update, crc8Shifts, crc8Shift_toNat, BitVec.toNat_xor, Source.crcUpdate]

/-- Bytes fed to a running register, on numbers. -/
theorem crc8From_toNat (c : Byte) (bs : List Byte) :
    (crc8From c bs).toNat = bs.foldl (fun n b => Source.crcUpdate n b.toNat) c.toNat := by
  induction bs generalizing c with
  | nil => rfl
  | cons b bs ih =>
    calc (crc8From (crc8Update c b) bs).toNat
        = bs.foldl (fun n b => Source.crcUpdate n b.toNat) (crc8Update c b).toNat := ih _
      _ = _ := by rw [crc8Update_toNat, List.foldl_cons]

theorem crc8_toNat (bs : List Byte) : (crc8 bs).toNat = Source.crc bs :=
  crc8From_toNat Config.crcInit bs

end Sys2Proof.Machine
end

section
/-! PROOFS. The illegal words of a class and the words its mask takes (rules R54, R55). -/

namespace Sys2Proof.Machine

open Sys2Proof.Claims

/-- An illegal word of class N has a nonzero field beside OP. -/
theorem classNIllegal {op : BitVec 8} (hop : op ∈ [0x00#8, 0x01#8, 0x10#8, 0x30#8]) :
    ClassNIllegal op := by
  rintro w rfl
  rw [← fieldWord_fields w, isIllegal_fieldWord_iff]
  simp only [List.mem_cons, List.not_mem_nil, or_false] at hop
  rcases hop with h | h | h | h
  all_goals simp [h, mem_assignedOps_iff, or_comm, or_assoc, or_left_comm]

/-- An illegal word of class I has a nonzero OFF or RSV. -/
theorem classIIllegal {op : BitVec 8} (hop : op ∈ [0x02#8, 0x11#8]) : ClassIIllegal op := by
  rintro w rfl
  rw [← fieldWord_fields w, isIllegal_fieldWord_iff]
  simp only [List.mem_cons, List.not_mem_nil, or_false] at hop
  rcases hop with h | h
  all_goals simp [h, mem_assignedOps_iff, or_comm]

/-- The mask of class I leaves IMM open and asks for 0 in OFF and RSV, which are the words of the class. -/
theorem matchedBy_classI {op : BitVec 8} {f : Byte → Instr} (hwf : ∀ b, WellFormed (f b))
    (henc : ∀ b, encode (f b) = classI op b) :
    MatchedBy (classN op) 0xFF00FFFF#32 (fun i => ∃ b, i = f b) := by
  intro w
  have hall : ∀ x : BitVec 8, x &&& 0xFF#8 = x := fun x => BitVec.and_allOnes (x := x)
  have hmask : (0xFF00FFFF#32) = fieldWord 0xFF#8 0#8 0xFF#8 0xFF#8 := by decide
  have hword : (∃ i, decode w = .ok i ∧ ∃ b, i = f b) ↔ ∃ b, fieldWord 0 b 0 op = w := by
    simp [decode_eq_ok_iff, hwf, henc, classI_eq_fieldWord]
  rw [hword, ← fieldWord_fields w, hmask, classN_eq_fieldWord, fieldWord_and]
  simp [fieldWord_inj, hall, eq_comm]

end Sys2Proof.Machine
end

section
/-! PROOFS. The buffer commands, each alone: CLEAR starts a new frame, PUSH appends one byte (rules R71,
R72, R163). -/

namespace Sys2Proof.Machine

open Sys2Proof.Claims

/-! ### DECODE rejects -/

theorem decodeRejects_of_rejectCause {s : State} (h : rejectCause s ≠ none) : DecodeRejects s := by
  obtain ⟨c, hc⟩ := Option.ne_none_iff_exists'.mp h
  exact ⟨rejectFrame s, exec_decode_reject hc, rfl, sameExcept_rejectFrame s⟩

/-- A count other than 64 is a reason to reject (rule R117). -/
theorem rejectCause_of_buflen_ne {s : State} (h : s.buflen.toNat ≠ 64) : rejectCause s ≠ none :=
  fun hc => h ((rejectCause_eq_none_iff s).mp hc).1

theorem decodeRejects_of_buflen_ne {s : State} (h : s.buflen.toNat ≠ 64) : DecodeRejects s :=
  decodeRejects_of_rejectCause (rejectCause_of_buflen_ne h)

/-- The count is 64 exactly when 64 bytes were pushed: it saturates far above. -/
theorem AgreesWithHistory.buflen_eq_iff {h : List Byte} {s : State} (hs : AgreesWithHistory h s) :
    s.buflen.toNat = 64 ↔ h.length = 64 := by
  have hlen := hs.1
  omega

/-! ### CLEAR -/

/-- CLEAR is the only command that writes ERR and ERRCODE when it is no command error. -/
theorem clear_of_writes_errs {i : Instr} (h : .errs ∈ writtenCols i) : i = .clear := by
  cases i with
  | clear => rfl
  | _ => simp [writtenCols] at h

/-- Every other command keeps ERR = 1 (rule R138). -/
theorem clear_of_exec_clears_err {i : Instr} {s t : State} (herr : s.status.err = true)
    (h : exec i s = .next t) (hclr : t.status.err = false) : i = .clear := by
  rcases exec_cases h with ⟨-, rfl⟩ | ⟨-, rfl⟩
  · by_contra hi
    have hkept := ((sameExcept_effect i s).1 .errs fun hw => hi (clear_of_writes_errs hw)).1
    simp [hkept, herr] at hclr
  · simp at hclr

/-- Settles O23: CLEAR sets the registers to 0, and a count other than 64 is rejected. -/
theorem clearStartsANewFrame : Obligations.ClearStartsANewFrame := by
  refine ⟨decode_encode (i := .clear) trivial, classNIllegal (by simp), fun s => ?_, fun h u hu hlen => ?_,
    fun i s t => clear_of_exec_clears_err⟩
  · exact ⟨s.clearRegisters, rfl, rfl, rfl, rfl, rfl, rfl, rfl, rfl, rfl, Status.word_zero,
      sameExcept_clearRegisters s, decodeRejects_of_buflen_ne (by simp)⟩
  · exact decodeRejects_of_buflen_ne fun h64 => hlen (hu.buflen_eq_iff.mp h64)

theorem clearRegisters_resetEvent (s : State) : s.resetEvent.clearRegisters = s.resetEvent := rfl

theorem clearRegisters_reset : State.reset.clearRegisters = State.reset := rfl

/-- Settles O50: the registers CLEAR sets to 0 are 0 already. -/
theorem clearRightAfterResetChangesNothing : Obligations.ClearRightAfterResetChangesNothing :=
  fun s => ⟨congrArg _ (clearRegisters_resetEvent s), congrArg _ clearRegisters_reset⟩

/-! ### PUSH -/

/-- BUFLEN after a PUSH. -/
theorem effect_push_buflen (b : Byte) (s : State) :
    (effect (.push b) s).buflen.toNat = min (s.buflen.toNat + 1) 0xFFFF := by
  rw [effect, countPushed_toNat, storePushed_buflen]

/-- The byte at each offset after a PUSH. -/
theorem effect_push_fbufByte (b : Byte) (s : State) (i : Nat) :
    (effect (.push b) s).fbufByte i =
      if s.buflen.toNat < 64 ∧ i = s.buflen.toNat then b else s.fbufByte i := by
  rw [effect, fbufByte_countPushed, fbufByte_storePushed]

theorem pushAddress_eq_some_iff {s : State} {a : Nat} :
    s.pushAddress = some a ↔ s.buflen.toNat < 64 ∧ a = s.buflen.toNat := by
  simp [State.pushAddress, eq_comm]

theorem pushAddress_eq_none_iff {s : State} : s.pushAddress = none ↔ 64 ≤ s.buflen.toNat := by
  simp [State.pushAddress]

/-- Settles O24: the store by BUFLEN's range, and after a PUSH to a full buffer the count is past 64. -/
theorem pushAppendsAndCountsOneByte : Obligations.PushAppendsAndCountsOneByte := by
  refine ⟨fun b => decode_encode (i := .push b) trivial,
    matchedBy_classI (op := 0x02#8) (f := .push) (fun _ => trivial) (fun _ => rfl),
    classIIllegal (by simp), fun s => rfl, fun b s => ?_⟩
  refine ⟨effect (.push b) s, rfl, effect_push_buflen b s, fun a ha => ?room, fun hnone i => ?full,
    sameExcept_effect (.push b) s, fun hfull => ?rejects⟩
  case room =>
    obtain ⟨hlt, rfl⟩ := pushAddress_eq_some_iff.mp ha
    refine ⟨?_, fun i hi => ?_⟩
    · rw [effect_push_fbufByte, if_pos ⟨hlt, rfl⟩]
    · rw [effect_push_fbufByte, if_neg fun h => hi h.2]
  case full =>
    have h64 := pushAddress_eq_none_iff.mp hnone
    rw [effect_push_fbufByte, if_neg (by omega)]
  case rejects =>
    refine decodeRejects_of_buflen_ne ?_
    rw [effect_push_buflen]
    omega

end Sys2Proof.Machine
end

section
/-! PROOFS. CLEAR, PUSH of any bytes, DECODE: the block answers as the source's `decode` does (rules R73,
R116, R117). -/

namespace Sys2Proof.Machine

/-! ### DECODE and the source's `decode` -/

/-- On a full buffer the source accepts exactly the frames the block accepts, with the block's record. -/
theorem sourceDecode_frame {s : State} (hfull : s.buflen.toNat = 64) :
    Source.decode s.frame = if rejectCause s = none then some (recordOf s).toList else none := by
  have hbyte : ∀ off, off + 1 ≤ 64 → Source.unsignedAt s.frame off 1 = (s.fbufByte off).toNat :=
    fun off h => by rw [unsignedAt_frame s h, memRead_one]
  have hcover : s.frame.take 61 = s.fbufBytes 0 61 := take_drop_frame s (off := 0) (by decide)
  have hlen : s.frame.length = 64 := s.fbufBytes_length 0 64
  have hcrc : Source.crc (s.fbufBytes 0 61) = (s.fbufByte 61).toNat ↔ frameCrc s = s.fbufByte 61 := by
    rw [← crc8_toNat, BitVec.toNat_inj]
    rfl
  simp only [Source.decode, hlen, hbyte, hcover, hcrc, rejectCause_eq_none_iff, hfull, recordOf_toList,
    Nat.reduceAdd, Nat.reduceLeDiff]

/-- The source's answer on the bytes pushed is the block's: a wrong number of bytes is rejected by both. -/
theorem AgreesWithHistory.sourceDecode {h : List Byte} {s : State} (hs : AgreesWithHistory h s) :
    Source.decode h = if rejectCause s = none then some (recordOf s).toList else none := by
  by_cases hfull : s.buflen.toNat = 64
  · rw [← hs.frame_eq hfull]
    exact sourceDecode_frame hfull
  · have hlen : h.length ≠ 64 := fun h64 => hfull (hs.buflen_eq_iff.mpr h64)
    rw [if_neg (rejectCause_of_buflen_ne hfull), Source.decode, if_neg fun hd => hlen hd.1]

/-- DECODE's verdict and record, on a buffer that holds a history, are the source's. -/
theorem AgreesWithHistory.decodeEffect {h : List Byte} {s : State} (hs : AgreesWithHistory h s) :
    (∀ r, Source.decode h = some r →
      (decodeEffect s).status.valid = true ∧ (decodeEffect s).record.toList = r) ∧
    (Source.decode h = none →
      (decodeEffect s).status.valid = false ∧ (decodeEffect s).record = s.record) := by
  rw [hs.sourceDecode, Machine.decodeEffect]
  split
  · exact ⟨fun r hr => ⟨rfl, Option.some.inj hr⟩, (nomatch ·)⟩
  · exact ⟨fun r => (nomatch ·), fun _ => ⟨rfl, rfl⟩⟩

/-! ### The run -/

/-- A step at the word of a legal command has the command's effect, at the state that has accepted it. -/
theorem step_encode {s : State} {i : Instr} {rest : List HostItem} (hwf : WellFormed i)
    (hlegal : RangeLegal i) (hp : s.pending = .command (encode i) :: rest) :
    step s = .next (effect i (s.accept rest)) :=
  (step_command hp (decode_encode hwf)).trans (exec_of_rangeLegal hlegal _)

/-- A legal command that the host writes leaves the rest of the stream and the returned words, and moves
the position on by one. -/
theorem effect_accept_hostSide (i : Instr) (s : State) (rest : List HostItem) :
    (effect i (s.accept rest)).pending = rest ∧
      (effect i (s.accept rest)).position = s.position + 1 ∧
      (effect i (s.accept rest)).observed = s.observed :=
  (sameExcept_effect i (s.accept rest)).2

/-- A CLEAR that the host writes starts an empty history, and REC stays. -/
theorem step_clear {s : State} {rest : List HostItem}
    (hp : s.pending = .command (encode .clear) :: rest) :
    ∃ t : State, step s = .next t ∧ AgreesWithHistory [] t ∧ t.record = s.record ∧
      t.pending = rest ∧ t.position = s.position + 1 ∧ t.observed = s.observed :=
  ⟨_, step_encode (i := .clear) trivial trivial hp, agreesWithHistory_nil rfl, rfl,
    effect_accept_hostSide .clear s rest⟩

/-- A PUSH that the host writes appends its byte to the history, and REC stays. -/
theorem step_push {h : List Byte} {s : State} {b : Byte} {rest : List HostItem}
    (hs : AgreesWithHistory h s) (hp : s.pending = .command (encode (.push b)) :: rest) :
    ∃ t : State, step s = .next t ∧ AgreesWithHistory (h ++ [b]) t ∧ t.record = s.record ∧
      t.pending = rest ∧ t.position = s.position + 1 ∧ t.observed = s.observed := by
  have hacc : AgreesWithHistory h (s.accept rest) := hs.of_same rfl fun _ => rfl
  exact ⟨_, step_encode (i := .push b) trivial trivial hp, hacc.push b,
    (sameExcept_effect (.push b) (s.accept rest)).1 .record (by simp [writtenCols]),
    effect_accept_hostSide (.push b) s rest⟩

/-- The host's items for a PUSH of each of these bytes. -/
def pushItems (bs : List Byte) : List HostItem := bs.map fun b => .command (encode (.push b))

/-- A host that writes any number of PUSH appends their bytes to the history, one step each, and REC stays. -/
theorem run_pushes (bs : List Byte) {h : List Byte} {s : State} {rest : List HostItem}
    (hs : AgreesWithHistory h s) (hp : s.pending = pushItems bs ++ rest) :
    ∃ t : State, Host.Core.run core bs.length s = .next t ∧ AgreesWithHistory (h ++ bs) t ∧
      t.record = s.record ∧ t.pending = rest ∧ t.position = s.position + bs.length ∧
      t.observed = s.observed := by
  induction bs generalizing h s with
  | nil => exact ⟨s, rfl, by rwa [List.append_nil], rfl, hp, rfl, rfl⟩
  | cons b bs ih =>
    obtain ⟨u, hstep, hu, hrecord, hpending, hposition, hobserved⟩ := step_push hs hp
    obtain ⟨t, hrun, ht, hrecord', hpending', hposition', hobserved'⟩ := ih hu hpending
    refine ⟨t, (run_succ_next hstep _).trans hrun, ?_, hrecord'.trans hrecord, hpending', ?_,
      hobserved'.trans hobserved⟩
    · rwa [List.append_assoc] at ht
    · rw [hposition', hposition, List.length_cons]
      omega

/-- A DECODE that the host writes leaves the history, with the source's verdict and record on it. -/
theorem step_decode {h : List Byte} {s : State} {rest : List HostItem} (hs : AgreesWithHistory h s)
    (hp : s.pending = .command (encode .decode) :: rest) :
    ∃ t : State, step s = .next t ∧ AgreesWithHistory h t ∧
      (∀ r, Source.decode h = some r → t.status.valid = true ∧ t.record.toList = r) ∧
      (Source.decode h = none → t.status.valid = false ∧ t.record = s.record) ∧
      t.pending = rest ∧ t.position = s.position + 1 ∧ t.observed = s.observed := by
  have hacc : AgreesWithHistory h (s.accept rest) := hs.of_same rfl fun _ => rfl
  obtain ⟨haccepts, hrejects⟩ := hacc.decodeEffect
  exact ⟨_, step_encode (i := .decode) trivial trivial hp, hacc.effect .decode, haccepts, hrejects,
    effect_accept_hostSide .decode s rest⟩

/-- The stream of a host that writes CLEAR, the bytes and DECODE. -/
theorem hostWrites_frame_pending (s : State) (bs : List Byte) (rest : List HostItem) :
    (s.hostWrites (encode .clear :: bs.map (fun b => encode (.push b)) ++ [encode .decode]) rest).pending =
      .command (encode .clear) :: (pushItems bs ++ .command (encode .decode) :: rest) := by
  simp [State.hostWrites, pushItems]

/-- Settles O54: CLEAR starts an empty history, the pushes append the bytes to it, and DECODE answers on it
as the source does. -/
theorem pushedFrameDecodesAsTheSourceDoes : Obligations.PushedFrameDecodesAsTheSourceDoes := by
  intro s bs rest
  obtain ⟨u, hclear, hu, hurec, hupend, hupos, huobs⟩ := step_clear (hostWrites_frame_pending s bs rest)
  obtain ⟨v, hpushes, hv, hvrec, hvpend, hvpos, hvobs⟩ := run_pushes bs hu hupend
  rw [List.nil_append] at hv
  obtain ⟨t, hdecode, ⟨hlen, hbyte⟩, haccepts, hrejects, htpend, htpos, htobs⟩ := step_decode hv hvpend
  refine ⟨t, ?run, hlen, hbyte, haccepts, fun hnone => ?kept, htpend, ?position,
    htobs.trans (hvobs.trans huobs)⟩
  case run =>
    rw [run_succ_next hclear (bs.length + 1), run_add, hpushes]
    exact run_succ_next hdecode 0
  case kept =>
    obtain ⟨hvalid, hkept⟩ := hrejects hnone
    exact ⟨hvalid, hkept.trans (hvrec.trans hurec)⟩
  case position =>
    rw [htpos, hvpos, hupos, State.hostWrites, State.setPending_position]
    omega

end Sys2Proof.Machine
end

section
/-! PROOFS. Laws of the CRC-8: the source's loop, linearity, composition and residue, and that one changed
byte shows (rules R80, R81, R86 to R89). -/

namespace Sys2Proof.Machine

open Sys2Proof.Claims

/-- Settles O17: the loop on numbers, where the mask keeps all of 0x07. -/
theorem crcIsTheSourceLoop : Obligations.CrcIsTheSourceLoop :=
  ⟨crc8Update_toNat, fun _ => Nat.and_xor_distrib_right, crc8_toNat⟩

/-- Settles O18, by running the eight repetitions. -/
theorem workedCrcUpdate : Obligations.WorkedCrcUpdate := by
  unfold Obligations.WorkedCrcUpdate
  decide

/-! ### Linearity (rule R86) -/

/-- What one repetition XORs in after the shift: 0x07 if bit 7 was 1 before it, else nothing. -/
def crcFeedback (c : Byte) : Byte := if c.getLsbD 7 then Config.crcPoly else 0x00#8

theorem crc8Shift_eq (c : Byte) : crc8Shift c = c <<< 1 ^^^ crcFeedback c := by
  unfold crc8Shift crcFeedback
  split
  · rfl
  · exact (BitVec.xor_zero).symm

/-- A constant chosen by a bit is linear. -/
theorem crcFeedback_xor (a b : Byte) : crcFeedback (a ^^^ b) = crcFeedback a ^^^ crcFeedback b := by
  unfold crcFeedback
  rw [BitVec.getLsbD_xor]
  cases a.getLsbD 7 <;> cases b.getLsbD 7 <;> decide

theorem crc8Shift_xor (a b : Byte) : crc8Shift (a ^^^ b) = crc8Shift a ^^^ crc8Shift b := by
  rw [crc8Shift_eq, crc8Shift_eq, crc8Shift_eq, BitVec.shiftLeft_xor_distrib, crcFeedback_xor]
  ac_rfl

theorem crc8Shifts_xor (n : Nat) (a b : Byte) :
    crc8Shifts n (a ^^^ b) = crc8Shifts n a ^^^ crc8Shifts n b := by
  induction n generalizing a b with
  | zero => rfl
  | succ n ih => simp only [crc8Shifts, crc8Shift_xor, ih]

theorem crc8Update_xor (c c' b b' : Byte) :
    crc8Update (c ^^^ c') (b ^^^ b') = crc8Update c b ^^^ crc8Update c' b' := by
  have hswap : (c ^^^ c') ^^^ (b ^^^ b') = (c ^^^ b) ^^^ (c' ^^^ b') := by ac_rfl
  rw [crc8Update, hswap, crc8Shifts_xor]
  rfl

theorem crc8From_zipWith_xor (c c' : Byte) {a b : List Byte} (h : a.length = b.length) :
    crc8From (c ^^^ c') (List.zipWith (· ^^^ ·) a b) = crc8From c a ^^^ crc8From c' b := by
  induction a generalizing b c c' with
  | nil =>
    obtain rfl := List.length_eq_zero_iff.mp h.symm
    rfl
  | cons x a ih =>
    cases b with
    | nil => cases h
    | cons y b =>
      calc crc8From (crc8Update (c ^^^ c') (x ^^^ y)) (List.zipWith (· ^^^ ·) a b)
          = crc8From (crc8Update c x ^^^ crc8Update c' y) (List.zipWith (· ^^^ ·) a b) := by
            rw [crc8Update_xor]
        _ = crc8From (crc8Update c x) a ^^^ crc8From (crc8Update c' y) b := ih _ _ (Nat.succ.inj h)

/-- Settles O19: the fold is linear, and it starts at 0. -/
theorem crcIsLinear : Obligations.CrcIsLinear :=
  fun _ _ h => crc8From_zipWith_xor Config.crcInit Config.crcInit h

/-! ### Composition and residue (rule R87) -/

/-- Bytes fed after bytes. -/
theorem crc8From_append (c : Byte) (a b : List Byte) :
    crc8From c (a ++ b) = crc8From (crc8From c a) b := List.foldl_append

/-- Shifts of 0 stay 0. -/
theorem crc8Shifts_zero (n : Nat) : crc8Shifts n 0x00#8 = 0x00#8 := by
  induction n with
  | zero => rfl
  | succ n ih => exact ih

/-- Feeding the register its own value leaves 0. -/
theorem crc8Update_self (c : Byte) : crc8Update c c = 0x00#8 := by
  rw [crc8Update, BitVec.xor_self]
  exact crc8Shifts_zero 8

/-- A message with its CRC appended has CRC 0. -/
theorem crc8_append_crc8 (m : List Byte) : crc8 (m ++ [crc8 m]) = 0x00#8 :=
  (crc8From_append _ m _).trans (crc8Update_self (crc8 m))

/-- A legal command answers no state but its effect. -/
theorem eq_effect_of_exec {i : Instr} {s t : State} (hlegal : RangeLegal i) (h : exec i s = .next t) :
    t = effect i s := by
  rw [exec_of_rangeLegal hlegal] at h
  exact (Host.Outcome.next.inj h).symm

/-- CRC after a legal CRCRANGE. -/
theorem effect_crcrange_crc (s : State) (off cnt : Nat) :
    (effect (.crcrange off cnt) s).crc = crc8From s.crc (s.fbufBytes off cnt) := rfl

/-- Two adjoining CRCRANGE leave the CRC of the one. -/
theorem effect_crcrange_append (s : State) (o n₁ n₂ : Nat) :
    (effect (.crcrange (o + n₁) n₂) (effect (.crcrange o n₁) s)).crc =
      (effect (.crcrange o (n₁ + n₂)) s).crc := by
  have hfbuf : Col.fbuf.Same s (effect (.crcrange o n₁) s) := fun _ => rfl
  simp only [effect_crcrange_crc, fbufBytes_of_same hfbuf, s.fbufBytes_append, crc8From_append]

/-- A frame that DECODE accepts has its CRC at offset 61 (rule R119). -/
theorem frameCrc_of_decodeAccepts {s : State} {r : List Slot} (h : DecodeAccepts s r) :
    frameCrc s = s.fbufByte 61 := by
  obtain ⟨t, ht, hvalid, -, -⟩ := h
  rcases execDecode_cases ht with ⟨hnone, -⟩ | ⟨-, rfl⟩
  · obtain ⟨-, -, -, hcrc⟩ := (rejectCause_eq_none_iff s).mp hnone
    exact hcrc
  · cases hvalid

/-- Settles O20: the fold goes on from the first part's CRC, and on an accepted frame the byte after the
covered ones is their CRC. -/
theorem crcComposesAndLeavesNoResidue : Obligations.CrcComposesAndLeavesNoResidue := by
  refine ⟨crc8From_append Config.crcInit, ?commands, crc8Update_self, crc8_append_crc8, ?frame⟩
  case commands =>
    intro s t u v t' v' o n₁ n₂ hsum ht hu hv ht' hv'
    have hfirst : RangeLegal (.crcrange o n₁) := by simp only [RangeLegal]; omega
    have hboth : RangeLegal (.crcrange o (n₁ + n₂)) := by simp only [RangeLegal]; omega
    obtain rfl := eq_effect_of_exec (i := .crcinit) trivial ht
    obtain rfl := eq_effect_of_exec (i := .crcinit) trivial ht'
    obtain rfl := eq_effect_of_exec hfirst hu
    obtain rfl := eq_effect_of_exec (i := .crcrange (o + n₁) n₂) hsum hv
    obtain rfl := eq_effect_of_exec hboth hv'
    exact effect_crcrange_append _ o n₁ n₂
  case frame =>
    intro s r haccepts
    have hlast : s.fbufBytes 61 1 = [frameCrc s] := by rw [frameCrc_of_decodeAccepts haccepts]; rfl
    rw [s.fbufBytes_append 0 61 1, hlast]
    exact crc8_append_crc8 _

/-! ### One changed byte (rule R88) -/

/-- Bit 0 after a repetition is bit 7 before it: the polynomial has constant term 1. -/
theorem crc8Shift_getLsbD_zero (c : Byte) : (crc8Shift c).getLsbD 0 = c.getLsbD 7 := by
  rw [crc8Shift_eq, crcFeedback]
  cases c.getLsbD 7 <;> simp [Config.crcPoly]

/-- A shift loses bit 7 only. -/
theorem eq_of_shiftLeft_one_eq {a b : Byte} (h : a <<< 1 = b <<< 1) (h7 : a.getLsbD 7 = b.getLsbD 7) :
    a = b := by
  ext i hi
  rcases Nat.lt_succ_iff_lt_or_eq.mp hi with hlt | rfl
  · have hbit := congrArg (·.getLsbD (i + 1)) h
    simpa [BitVec.getLsbD_shiftLeft, show i + 1 < 8 by omega] using hbit
  · exact h7

/-- A repetition can be undone: its bit 0 says whether 0x07 was XORed in, and is the bit the shift lost. -/
theorem crc8Shift_injective : Function.Injective crc8Shift := by
  intro a b h
  have h7 : a.getLsbD 7 = b.getLsbD 7 := by
    rw [← crc8Shift_getLsbD_zero, ← crc8Shift_getLsbD_zero, h]
  have hfeedback : crcFeedback a = crcFeedback b := by rw [crcFeedback, crcFeedback, h7]
  rw [crc8Shift_eq, crc8Shift_eq, hfeedback, BitVec.xor_left_inj] at h
  exact eq_of_shiftLeft_one_eq h h7

theorem crc8Shifts_injective (n : Nat) : Function.Injective (crc8Shifts n) := by
  induction n with
  | zero => exact Function.injective_id
  | succ n ih => exact ih.comp crc8Shift_injective

/-- The register shows every change of the byte fed. -/
theorem crc8Update_right_injective (c : Byte) : Function.Injective (crc8Update c) :=
  fun _ _ h => BitVec.xor_right_inj _ |>.mp (crc8Shifts_injective 8 h)

/-- The register shows every change of its own value. -/
theorem crc8Update_left_injective (b : Byte) : Function.Injective (crc8Update · b) :=
  fun _ _ h => BitVec.xor_left_inj _ |>.mp (crc8Shifts_injective 8 h)

/-- Bytes fed after a change keep it. -/
theorem crc8From_injective (bs : List Byte) : Function.Injective (crc8From · bs) := by
  induction bs with
  | nil => exact Function.injective_id
  | cons b bs ih => exact ih.comp (crc8Update_left_injective b)

theorem crc8From_set_ne (c : Byte) {m : List Byte} {i : Nat} {b : Byte} (h : i < m.length)
    (hb : b ≠ m[i]) : crc8From c (m.set i b) ≠ crc8From c m := by
  induction m generalizing c i with
  | nil => cases h
  | cons x m ih =>
    cases i with
    | zero => exact (crc8From_injective m).ne ((crc8Update_right_injective c).ne hb)
    | succ i => exact ih (crc8Update c x) (Nat.lt_of_succ_lt_succ h) hb

/-- Settles O21: the changed byte shows in the register, and the bytes after it keep the change. -/
theorem oneByteChangeChangesTheCrc : Obligations.OneByteChangeChangesTheCrc :=
  fun _ _ _ h hb => crc8From_set_ne Config.crcInit h hb

end Sys2Proof.Machine
end

section
/-! PROOFS. The illegal words of classes O and OC and the words their masks take (rules R54, R55). -/

namespace Sys2Proof.Machine

open Sys2Proof.Claims

/-! ### Illegal words -/

/-- An illegal word of class O has a nonzero IMM or RSV. -/
theorem classOIllegal {op : BitVec 8} (hop : op ∈ [0x13#8, 0x20#8, 0x21#8, 0x22#8, 0x23#8]) :
    ClassOIllegal op := by
  rintro w rfl
  rw [← fieldWord_fields w, isIllegal_fieldWord_iff]
  simp only [List.mem_cons, List.not_mem_nil, or_false] at hop
  rcases hop with h | h | h | h | h
  all_goals simp [h, mem_assignedOps_iff, or_comm]

/-- An illegal word of class OC, which is CRCRANGE's alone, has a nonzero RSV. -/
theorem classOCIllegal : ClassOCIllegal 0x12#8 := by
  intro w hop
  rw [← fieldWord_fields w, isIllegal_fieldWord_iff]
  simp [hop, mem_assignedOps_iff]

/-! ### Match and mask -/

theorem and_ones_eq_self (b : BitVec 8) : b &&& 0xFF#8 = b := BitVec.and_allOnes

/-- The commands of class O by fields: OFF is any byte. -/
theorem exists_decode_classO_iff {op : BitVec 8} {f : Nat → Instr}
    (hwf : ∀ off, WellFormed (f off) ↔ FitsField off) (henc : ∀ off, encode (f off) = classO op off)
    (w : Word) : (∃ i, decode w = .ok i ∧ ∃ off, i = f off) ↔ ∃ o, fieldWord 0 0 o op = w := by
  constructor
  · rintro ⟨_, hd, off, rfl⟩
    obtain ⟨hoff, rfl⟩ := decode_eq_ok_iff.mp hd
    exact ⟨_, by rw [henc, classO_eq_fieldWord op off ((hwf off).mp hoff)]⟩
  · rintro ⟨o, rfl⟩
    have hfits := fitsField_toNat o
    refine ⟨f o.toNat, decode_eq_ok_iff.mpr ⟨(hwf _).mpr hfits, ?_⟩, _, rfl⟩
    rw [henc, classO_eq_fieldWord op _ hfits, BitVec.ofNat_toNat, BitVec.setWidth_eq]

/-- The mask of class O leaves OFF open and asks for 0 in IMM and RSV, which are the words of the class. -/
theorem matchedBy_classO {op : BitVec 8} {f : Nat → Instr}
    (hwf : ∀ off, WellFormed (f off) ↔ FitsField off) (henc : ∀ off, encode (f off) = classO op off) :
    MatchedBy (classN op) 0xFFFF00FF#32 (fun i => ∃ off, i = f off) := by
  intro w
  have hmask : (0xFFFF00FF#32) = fieldWord 0xFF#8 0xFF#8 0#8 0xFF#8 := by decide
  rw [exists_decode_classO_iff hwf henc, ← fieldWord_fields w, hmask, classN_eq_fieldWord, fieldWord_and]
  simp [fieldWord_inj, and_ones_eq_self, eq_comm]

/-- CRCRANGE by fields: OFF and IMM are any bytes. -/
theorem exists_decode_crcrange_iff (w : Word) :
    (∃ i, decode w = .ok i ∧ ∃ off cnt, i = .crcrange off cnt) ↔ ∃ o m, fieldWord 0 m o 0x12#8 = w := by
  constructor
  · rintro ⟨_, hd, off, cnt, rfl⟩
    obtain ⟨⟨hoff, hcnt⟩, rfl⟩ := decode_eq_ok_iff.mp hd
    exact ⟨_, _, (classOC_eq_fieldWord _ off cnt hoff hcnt).symm⟩
  · rintro ⟨o, m, rfl⟩
    exact ⟨.crcrange o.toNat m.toNat, by simp [decode_fieldWord], _, _, rfl⟩

/-- The mask of class OC leaves OFF and IMM open and asks for 0 in RSV. -/
theorem matchedBy_crcrange :
    MatchedBy (classN 0x12#8) 0xFF0000FF#32 (fun i => ∃ off cnt, i = .crcrange off cnt) := by
  intro w
  have hmask : (0xFF0000FF#32) = fieldWord 0xFF#8 0#8 0#8 0xFF#8 := by decide
  rw [exists_decode_crcrange_iff, ← fieldWord_fields w, hmask, classN_eq_fieldWord, fieldWord_and]
  simp [fieldWord_inj, and_ones_eq_self, eq_comm]

end Sys2Proof.Machine
end

section
/-! PROOFS. The four CRC commands, each alone (rules R82 to R85). -/

namespace Sys2Proof.Machine

open Sys2Proof.Claims

/-- A command that is not legal to execute raises RANGE (rules R59, R136). -/
theorem raisesRange_of_not_rangeLegal {i : Instr} (h : ¬ RangeLegal i) (s : State) : RaisesRange i s :=
  ⟨_, exec_of_not_rangeLegal h s, isErrorOf_cmdError s .range⟩

/-! ### CRCINIT and CRCBYTE -/

/-- Settles O25: CRCINIT writes CRC alone, with the value that reset and CLEAR leave. -/
theorem crcinitResetsTheRegister : Obligations.CrcinitResetsTheRegister :=
  ⟨decode_encode (i := .crcinit) trivial, classNIllegal (by simp), fun s =>
    ⟨effect .crcinit s, rfl, rfl, sameExcept_effect .crcinit s, rfl, s.clearRegisters, rfl, rfl⟩⟩

/-- CRC after a CRCBYTE. -/
theorem effect_crcbyte_crc (b : Byte) (s : State) :
    (effect (.crcbyte b) s).crc = crc8Update s.crc b := rfl

/-- Settles O26: one update, which is the source's on numbers. -/
theorem crcbyteFeedsOneByte : Obligations.CrcbyteFeedsOneByte := by
  refine ⟨fun b => decode_encode (i := .crcbyte b) trivial,
    matchedBy_classI (op := 0x11#8) (f := .crcbyte) (fun _ => trivial) (fun _ => rfl),
    classIIllegal (by simp), fun b s => ?_⟩
  refine ⟨effect (.crcbyte b) s, rfl, crc8Update_toNat s.crc b, sameExcept_effect (.crcbyte b) s,
    fun heq => ?own, fun hzero hone => ?vector⟩
  case own => rw [effect_crcbyte_crc, heq, crc8Update_self]
  case vector =>
    rw [effect_crcbyte_crc, hzero, hone]
    decide

/-! ### CRCRANGE -/

/-- The bytes of a range, as a list over their offsets. -/
theorem fbufBytes_eq_map_range (s : State) (off n : Nat) :
    s.fbufBytes off n = (List.range n).map fun i => s.fbufByte (off + i) :=
  List.ext_getElem (by simp) fun i h _ => by simp [s.fbufBytes_getElem off n i h]

/-- Feeding the bytes of a range is the source's loop over them on numbers. -/
theorem crc8From_fbufBytes_toNat (c : Byte) (s : State) (off cnt : Nat) :
    (crc8From c (s.fbufBytes off cnt)).toNat = crcOver c.toNat s off cnt := by
  rw [crc8From_toNat, fbufBytes_eq_map_range, crcOver, List.foldl_map, List.foldl_map]

/-- The covered bytes of V-F1 have CRC 0x27. -/
theorem crc8_frameF1 : crc8 (frameF1.take 61) = 0x27#8 := by decide +kernel

/-- The CRC of the covered bytes where FBUF holds V-F1. -/
theorem crc8_fbufBytes_of_frame_eq {s : State} (h : s.frame = frameF1) :
    crc8 (s.fbufBytes 0 61) = 0x27#8 := by
  rw [← take_drop_frame s (show 0 + 61 ≤ 64 by decide), h]
  exact crc8_frameF1

/-- Settles O27: in range the fold over the bytes, past it a RANGE error. -/
theorem crcrangeFeedsARange : Obligations.CrcrangeFeedsARange := by
  refine ⟨fun off cnt hoff hcnt => decode_encode (i := .crcrange off cnt) ⟨hoff, hcnt⟩, matchedBy_crcrange,
    classOCIllegal, fun off cnt s hlegal => ?_,
    fun off cnt s hout => raisesRange_of_not_rangeLegal (i := .crcrange off cnt) (Nat.not_le.mpr hout) s⟩
  refine ⟨_, exec_of_rangeLegal (i := .crcrange off cnt) hlegal s, crc8From_fbufBytes_toNat s.crc s off cnt,
    sameExcept_effect (.crcrange off cnt) s, ?empty, ?vector⟩
  case empty =>
    rintro rfl
    rfl
  case vector =>
    rintro hframe hzero rfl rfl
    rw [effect_crcrange_crc, hzero]
    exact crc8_fbufBytes_of_frame_eq hframe

/-! ### CRCCHK -/

/-- MATCH after a legal CRCCHK. -/
theorem effect_crcchk_mtch (off : Nat) (s : State) :
    (effect (.crcchk off) s).status.mtch = true ↔ s.crc = s.fbufByte off := beq_iff_eq

/-- Bytes are equal exactly when they agree in all 8 bits. -/
theorem byte_eq_iff_getLsbD {a b : Byte} : a = b ↔ ∀ n, n < 8 → a.getLsbD n = b.getLsbD n :=
  ⟨fun h _ _ => by rw [h], BitVec.eq_of_getLsbD_eq⟩

/-- A byte of FBUF, read off the whole frame. -/
theorem fbufByte_of_frame {s : State} {bs : List Byte} (h : s.frame = bs) {i : Nat} (hi : i < bs.length) :
    s.fbufByte i = bs[i] := by
  subst h
  exact ((s.fbufBytes_getElem 0 64 i hi).trans (by rw [Nat.zero_add])).symm

/-- Settles O28: in range MATCH is the comparison of two bytes, past it a RANGE error. -/
theorem crcchkComparesAllBits : Obligations.CrcchkComparesAllBits := by
  refine ⟨fun off hoff => decode_encode (i := .crcchk off) hoff,
    matchedBy_classO (op := 0x13#8) (f := .crcchk) (fun _ => Iff.rfl) (fun _ => rfl),
    classOIllegal (by simp), fun off s hlegal => ?_,
    fun off s hout => raisesRange_of_not_rangeLegal (i := .crcchk off) (Nat.not_le.mpr hout) s⟩
  refine ⟨_, exec_of_rangeLegal (i := .crcchk off) hlegal s,
    (effect_crcchk_mtch off s).trans byte_eq_iff_getLsbD, sameExcept_effect (.crcchk off) s, ?vector⟩
  rintro hframe hcrc rfl
  rw [effect_crcchk_mtch, hcrc, fbufByte_of_frame hframe (by decide)]
  decide

end Sys2Proof.Machine
end

section
/-! PROOFS. The pseudo-instructions, and the checksum verdict VERIFY leaves (rules R63, R119). -/

namespace Sys2Proof.Machine

open Sys2Proof.Claims

/-- A legal command that the host writes leaves every column it does not write. -/
theorem same_effect_accept {c : Col} {i : Instr} (hc : c ∉ writtenCols i) (s : State)
    (rest : List HostItem) : c.Same s (effect i (s.accept rest)) :=
  (same_accept c s rest).trans ((sameExcept_effect i _).1 c hc)

/-- Writing command words leaves the block as it is. -/
theorem same_hostWrites (c : Col) (s : State) (ws : List Word) (rest : List HostItem) :
    c.Same s (s.hostWrites ws rest) := by
  cases c with
  | fbuf => exact fun _ => rfl
  | errs => exact ⟨rfl, rfl⟩
  | _ => rfl

/-- A CRCINIT that the host writes leaves CRC 0. -/
theorem step_crcinit {s : State} {rest : List HostItem}
    (hp : s.pending = .command (encode .crcinit) :: rest) :
    ∃ t : State, step s = .next t ∧ t.crc = Config.crcInit ∧ (∀ c, c ∉ [Col.crc] → c.Same s t) ∧
      t.pending = rest :=
  ⟨_, step_encode (i := .crcinit) trivial trivial hp, rfl, fun _ hc => same_effect_accept hc s rest, rfl⟩

/-- A CRCRANGE in range that the host writes feeds its bytes to CRC. -/
theorem step_crcrange {s : State} {off cnt : Nat} {rest : List HostItem} (hlegal : off + cnt ≤ 64)
    (hp : s.pending = .command (encode (.crcrange off cnt)) :: rest) :
    ∃ t : State, step s = .next t ∧ t.crc = crc8From s.crc (s.fbufBytes off cnt) ∧
      (∀ c, c ∉ [Col.crc] → c.Same s t) ∧ t.pending = rest := by
  have hwf : WellFormed (.crcrange off cnt) := ⟨by omega, by omega⟩
  have hfbuf : Col.fbuf.Same s (s.accept rest) := same_accept .fbuf s rest
  refine ⟨_, step_encode hwf hlegal hp, ?_, fun _ hc => same_effect_accept hc s rest, rfl⟩
  rw [effect_crcrange_crc, fbufBytes_of_same hfbuf, State.accept_crc]

/-- A CRCCHK in range that the host writes compares CRC with a byte. -/
theorem step_crcchk {s : State} {off : Nat} {rest : List HostItem} (hlegal : off ≤ 63)
    (hp : s.pending = .command (encode (.crcchk off)) :: rest) :
    ∃ t : State, step s = .next t ∧ (t.status.mtch = true ↔ s.crc = s.fbufByte off) ∧
      (∀ c, c ∉ [Col.mtch] → c.Same s t) ∧ t.pending = rest := by
  have hwf : WellFormed (.crcchk off) := Nat.le_trans hlegal (by decide)
  exact ⟨_, step_encode hwf hlegal hp, effect_crcchk_mtch off (s.accept rest),
    fun _ hc => same_effect_accept hc s rest, rfl⟩

/-- The stream of a host that writes VERIFY. -/
theorem hostWrites_verify_pending (s : State) (rest : List HostItem) :
    (s.hostWrites Pseudo.verify.words rest).pending = .command (encode .crcinit) ::
      .command (encode (.crcrange 0 61)) :: .command (encode (.crcchk 61)) :: rest := rfl

/-- The words of a LOADFRAME: a CLEAR and one PUSH per byte. -/
theorem loadframe_words (bs : List Byte) :
    (Pseudo.loadframe bs).words = encode .clear :: bs.map fun b => encode (.push b) := by
  simp [Pseudo.words, Pseudo.expand]

/-- After VERIFY CRC is the CRC of the covered bytes, MATCH its comparison with the checksum byte, and the
rest of the block as it was. -/
theorem run_verify (s : State) (rest : List HostItem) : ∃ t : State,
    Host.Core.run core 3 (s.hostWrites Pseudo.verify.words rest) = .next t ∧
      (t.status.mtch = true ↔ crc8 (s.fbufBytes 0 61) = s.fbufByte 61) ∧
      t.crc = crc8 (s.fbufBytes 0 61) ∧ (∀ c, c ∉ [Col.crc, Col.mtch] → c.Same s t) ∧
      t.pending = rest := by
  obtain ⟨u, hinit, hucrc, hukeeps, hupend⟩ := step_crcinit (hostWrites_verify_pending s rest)
  obtain ⟨v, hrange, hvcrc, hvkeeps, hvpend⟩ := step_crcrange (by decide) hupend
  obtain ⟨t, hchk, htmtch, htkeeps, htpend⟩ := step_crcchk (by decide) hvpend
  have hsu : ∀ c, c ∉ [Col.crc] → c.Same s u := fun c hc =>
    (same_hostWrites c s _ rest).trans (hukeeps c hc)
  have hsv : ∀ c, c ∉ [Col.crc] → c.Same s v := fun c hc => (hsu c hc).trans (hvkeeps c hc)
  have hcrc : v.crc = crc8 (s.fbufBytes 0 61) := by
    rw [hvcrc, hucrc, fbufBytes_of_same (hsu .fbuf (by decide))]
    rfl
  have htcrc : t.crc = v.crc := htkeeps .crc (by decide)
  refine ⟨t, ?run, ?verdict, htcrc.trans hcrc, fun c hc => ?keeps, htpend⟩
  case run =>
    calc Host.Core.run core 3 _
        = Host.Core.run core 2 u := run_succ_next hinit 2
      _ = Host.Core.run core 1 v := run_succ_next hrange 1
      _ = .next t := run_succ_next hchk 0
  case verdict => rw [htmtch, hcrc, hsv .fbuf (by decide) 61]
  case keeps =>
    rw [List.mem_cons, not_or] at hc
    obtain ⟨hnotCrc, hnotMtch⟩ := hc
    exact (hsv c (by rwa [List.mem_singleton])).trans (htkeeps c hnotMtch)

/-- Settles O55: the words are the encodings, and the CRC the verdict compares is the source's. -/
theorem verifyLeavesTheChecksumVerdict : Obligations.VerifyLeavesTheChecksumVerdict := by
  refine ⟨loadframe_words, fun _ _ => rfl, by decide, fun s rest => ?_⟩
  obtain ⟨t, hrun, hmtch, hcrc, hkeeps, hpend⟩ := run_verify s rest
  refine ⟨t, hrun, ?_, ?_, hkeeps, hpend⟩
  · rw [hmtch, ← BitVec.toNat_inj, crc8_toNat]
  · rw [hcrc, crc8_toNat]

end Sys2Proof.Machine
end

section
/-! PROOFS. The four loads of the field extractor, each alone: the slot a load leaves as a number, and the
class of a binary32 pattern (rules R95 to R99, R104). -/

namespace Sys2Proof.Machine

open Sys2Proof.Claims

/-! ### The field functions as numbers (rule R95) -/

/-- Zero extension to a slot keeps the unsigned value. -/
theorem zext64_toNat {w : Nat} (v : BitVec w) (hw : w ≤ 64) : (zext64 v).toNat = v.toNat :=
  BitVec.toNat_setWidth_of_le hw

/-- Sign extension to a slot keeps the signed value. -/
theorem sext64_toInt {w : Nat} (v : BitVec w) (hw : w ≤ 64) : (sext64 v).toInt = v.toInt :=
  BitVec.toInt_signExtend_of_le hw

theorem fldU8_toNat (s : State) (off : Nat) : (fldU8 s off).toNat = (s.fbufByte off).toNat :=
  zext64_toNat _ (by decide)

theorem fldU64_toNat (s : State) (off : Nat) : (fldU64 s off).toNat = leSum s off 8 :=
  (zext64_toNat _ (by decide)).trans (memRead_toNat s off 8)

theorem f32Pattern_toNat (s : State) (off : Nat) : (f32Pattern s off).toNat = leSum s off 4 :=
  memRead_toNat s off 4

theorem fldF32_toNat (s : State) (off : Nat) : (fldF32 s off).toNat = leSum s off 4 :=
  (zext64_toNat _ (by decide)).trans (f32Pattern_toNat s off)

/-- Two's complement on 16 bits (rule R10). -/
theorem toInt_eq_sint16 (v : BitVec 16) : v.toInt = sint16 v.toNat := by
  rw [BitVec.toInt_eq_toNat_cond, sint16]
  split_ifs <;> omega

theorem fldS16_toInt (s : State) (off : Nat) : (fldS16 s off).toInt = sint16 (leSum s off 2) := by
  rw [fldS16, sext64_toInt _ (by decide), toInt_eq_sint16, memRead_toNat]

/-- A signed field is its two bytes, the one at `off` lowest, sign-extended (rules R37, R97). -/
theorem fldS16_eq (s : State) (off : Nat) :
    fldS16 s off = sext64 (s.fbufByte (off + 1) ++ s.fbufByte off) := by
  show sext64 ((0#0 ++ s.fbufByte (off + 1)) ++ s.fbufByte off) = _
  rw [BitVec.zero_width_append]
  rfl

/-- A pattern is the source's unsigned field of the frame. -/
theorem f32Pattern_frame (s : State) {off : Nat} (h : off + 4 ≤ 64) :
    f32Pattern s off = BitVec.ofNat 32 (Source.unsignedAt s.frame off 4) := by
  rw [unsignedAt_frame s h, f32Pattern, BitVec.ofNat_toNat, BitVec.setWidth_eq]

/-! ### The class of a binary32 pattern (rules R100, R104) -/

section
variable (w : BitVec 32)

theorem f32Sign_toNat : (f32Sign w).toNat = w.toNat / 2 ^ 31 := by
  have := w.isLt
  rw [f32Sign, BitVec.getLsbD, Nat.toNat_testBit]
  omega

theorem f32Exponent_eq : f32Exponent w = exponentOf w.toNat := by
  rw [f32Exponent, BitVec.extractLsb'_toNat, Nat.shiftRight_eq_div_pow]
  rfl

theorem f32Fraction_eq : f32Fraction w = fractionOf w.toNat := by
  rw [f32Fraction, BitVec.extractLsb'_toNat, Nat.shiftRight_zero]
  rfl

/-- The class holds the sign above the 3-bit class number. -/
theorem fclassOf_toNat : (fclassOf w).toNat = w.toNat / 2 ^ 31 * 8 + (f32Class w).toNat := by
  rw [fclassOf, BitVec.toNat_append, ← Nat.shiftLeft_add_eq_or_of_lt (f32Class w).isLt,
    Nat.shiftLeft_eq, BitVec.toNat_ofBool, f32Sign_toNat]

theorem fclassOf_div : (fclassOf w).toNat / 8 = w.toNat / 2 ^ 31 := by
  have := (f32Class w).isLt
  rw [fclassOf_toNat]
  omega

theorem fclassOf_mod : (fclassOf w).toNat % 8 = (f32Class w).toNat := by
  have := (f32Class w).isLt
  rw [fclassOf_toNat]
  omega

/-- The class number of a pattern, by exponent and fraction as numbers. -/
theorem f32Class_toNat : (f32Class w).toNat =
    if exponentOf w.toNat = 0 then (if fractionOf w.toNat = 0 then 0 else 1)
    else if exponentOf w.toNat = 255 then (if fractionOf w.toNat = 0 then 3 else 4)
    else 2 := by
  rw [f32Class, f32Exponent_eq, f32Fraction_eq]
  split_ifs <;> rfl

/-- FCLASS follows the table of rule R104. -/
theorem hasClass_fclassOf : HasClass w.toNat (fclassOf w).toNat := by
  have hexp : exponentOf w.toNat < 256 := Nat.mod_lt _ (by decide)
  rw [HasClass, fclassOf_div, fclassOf_mod, f32Class_toNat]
  refine ⟨rfl, ?_⟩
  split_ifs with hzero hfrac hones hfrac
  · simp [hzero, hfrac]
  · simp [hzero, hfrac]
  · simp [hones, hfrac]
  · simp [hones, hfrac]
  · simp [hzero, hones]
    omega

end

/-! ### The statements -/

/-- What the four loads share: a command of class O whose offset may go up to `last` has its encoding, its
mask and its illegal words, answers its effect up to there, and raises RANGE past it (rules R54, R55, R59). -/
theorem classO_command {op : BitVec 8} {f : Nat → Instr} {last : Nat} {Post : Nat → State → State → Prop}
    (hop : op ∈ [0x13#8, 0x20#8, 0x21#8, 0x22#8, 0x23#8])
    (hwf : ∀ off, WellFormed (f off) ↔ FitsField off) (henc : ∀ off, encode (f off) = classO op off)
    (hlegal : ∀ off, RangeLegal (f off) ↔ off ≤ last)
    (hpost : ∀ off s, off ≤ last → Post off s (effect (f off) s)) :
    (∀ off, off ≤ 255 → decode (classO op off) = .ok (f off)) ∧
      MatchedBy (classN op) 0xFFFF00FF#32 (fun i => ∃ off, i = f off) ∧ ClassOIllegal op ∧
      (∀ off s, off ≤ last → ∃ t, exec (f off) s = .next t ∧ Post off s t) ∧
      (∀ off s, last < off → RaisesRange (f off) s) := by
  refine ⟨fun off hoff => ?decodes, matchedBy_classO hwf henc, classOIllegal hop, fun off s hle => ?legal,
    fun off s hlt => ?range⟩
  case decodes =>
    rw [← henc]
    exact decode_encode ((hwf off).mpr hoff)
  case legal => exact ⟨_, exec_of_rangeLegal ((hlegal off).mpr hle) s, hpost off s hle⟩
  case range => exact raisesRange_of_not_rangeLegal (mt (hlegal off).mp (Nat.not_le.mpr hlt)) s

theorem effect_ldu8_res (off : Nat) (s : State) : (effect (.ldu8 off) s).res = fldU8 s off := rfl

/-- Settles O29: the slot is the byte, zero-extended. -/
theorem ldu8LoadsAnUnsignedByte : Obligations.Ldu8LoadsAnUnsignedByte := by
  refine classO_command (op := 0x20#8) (f := .ldu8) (by simp) (fun _ => Iff.rfl) (fun _ => rfl)
    (fun _ => Iff.rfl) fun off s _ => ⟨fldU8_toNat s off, sameExcept_effect (.ldu8 off) s, ?vector⟩
  rintro hframe rfl
  rw [effect_ldu8_res, ← unsignedSlot_frame_one s (by decide), hframe]
  decide

theorem effect_lds16_res (off : Nat) (s : State) : (effect (.lds16 off) s).res = fldS16 s off := rfl

/-- Settles O30: the slot is the signed value of two bytes, and each corner value is read off its bytes. -/
theorem lds16LoadsASignedInteger : Obligations.Lds16LoadsASignedInteger := by
  refine classO_command (op := 0x21#8) (f := .lds16) (by simp) (fun _ => Iff.rfl) (fun _ => rfl)
    (fun _ => Iff.rfl) fun off s _ => ⟨fldS16_toInt s off, sameExcept_effect (.lds16 off) s,
      fun hlo hhi => ?least, fun hlo hhi => ?greatest, fun hlo hhi => ?minusOne, ?vector⟩
  case least | greatest | minusOne =>
    rw [effect_lds16_res, fldS16_eq, hlo, hhi]
    decide
  case vector =>
    rintro hframe rfl
    rw [effect_lds16_res, ← signedSlot_frame s (by decide), hframe]
    decide

theorem effect_ldu64_res (off : Nat) (s : State) : (effect (.ldu64 off) s).res = fldU64 s off := rfl

/-- Settles O31: the slot is the little-endian sum of eight bytes. -/
theorem ldu64LoadsAnUnsignedInteger : Obligations.Ldu64LoadsAnUnsignedInteger := by
  refine classO_command (op := 0x22#8) (f := .ldu64) (by simp) (fun _ => Iff.rfl) (fun _ => rfl)
    (fun _ => Iff.rfl) fun off s _ => ⟨fldU64_toNat s off, sameExcept_effect (.ldu64 off) s, ?vector⟩
  rintro hframe rfl
  rw [effect_ldu64_res, ← unsignedSlot_frame_eight s (by decide), hframe]
  decide

theorem effect_ldf32_res (off : Nat) (s : State) :
    (effect (.ldf32 off) s).res = zext64 (f32Pattern s off) := rfl

theorem effect_ldf32_fclass (off : Nat) (s : State) :
    (effect (.ldf32 off) s).fclass = fclassOf (f32Pattern s off) := rfl

/-- Settles O32: the slot is the pattern's number, and FCLASS is the table's class of that same pattern. -/
theorem ldf32LoadsThePatternAndItsClass : Obligations.Ldf32LoadsThePatternAndItsClass := by
  refine classO_command (op := 0x23#8) (f := .ldf32) (by simp) (fun _ => Iff.rfl) (fun _ => rfl)
    (fun _ => Iff.rfl) fun off s _ => ⟨fldF32_toNat s off, ?fclass, sameExcept_effect (.ldf32 off) s, ?vector⟩
  case fclass =>
    rw [effect_ldf32_fclass, ← f32Pattern_toNat]
    exact hasClass_fclassOf _
  case vector =>
    rintro hframe rfl
    have hpattern : f32Pattern s 14 = 0x3F800000#32 := by
      rw [f32Pattern_frame s (by decide), hframe]
      decide
    rw [effect_ldf32_res, effect_ldf32_fclass, hpattern]
    decide +kernel

end Sys2Proof.Machine
end

section
/-! PROOFS. DECODE accepts exactly the frames of the source, and gives their record (rules R25, R116). -/

namespace Sys2Proof.Machine

open Sys2Proof.Claims

/-! ### Verdict and record -/

/-- A frame that no check rejects is accepted with the source's record (rule R120). -/
theorem decodeAccepts_of_rejectCause {s : State} (h : rejectCause s = none) :
    DecodeAccepts s (Source.record s.frame) :=
  ⟨acceptFrame s, exec_decode_accept h, rfl, recordOf_toList s, sameExcept_acceptFrame s⟩

/-- A frame that DECODE accepts fails no check. -/
theorem rejectCause_of_decodeAccepts {s : State} {r : List Slot} (h : DecodeAccepts s r) :
    rejectCause s = none := by
  obtain ⟨t, ht, hvalid, -⟩ := h
  rcases execDecode_cases ht with ⟨hnone, -⟩ | ⟨-, rfl⟩
  · exact hnone
  · cases hvalid

/-- The block accepts the full buffers that the source does not fail on. -/
theorem rejectCause_eq_none_iff_sourceDecode (s : State) :
    rejectCause s = none ↔ s.buflen.toNat = 64 ∧ Source.decode s.frame ≠ none := by
  by_cases hfull : s.buflen.toNat = 64
  · simp [sourceDecode_frame hfull, hfull]
  · simp [rejectCause_of_buflen_ne hfull, hfull]

/-- Frames that read the same have the same record (rule R25). -/
theorem recordOf_of_frame {s₁ s₂ : State} (h : s₁.frame = s₂.frame) : recordOf s₁ = recordOf s₂ :=
  Vector.toList_inj.mp (by rw [recordOf_toList, recordOf_toList, h])

/-- One verdict on two states, and one record when no check rejects, show in what DECODE leaves. -/
theorem decode_agrees {s₁ s₂ t₁ t₂ : State} (h₁ : exec .decode s₁ = .next t₁)
    (h₂ : exec .decode s₂ = .next t₂) (hverdict : rejectCause s₁ = none ↔ rejectCause s₂ = none)
    (hrecord : recordOf s₁ = recordOf s₂) :
    t₁.status.valid = t₂.status.valid ∧ (t₁.status.valid = true → t₁.record = t₂.record) := by
  rcases execDecode_cases h₁ with ⟨hnone, rfl⟩ | ⟨hsome, rfl⟩
  · obtain rfl : acceptFrame s₂ = t₂ :=
      Host.Outcome.next.inj ((exec_decode_accept (hverdict.mp hnone)).symm.trans h₂)
    exact ⟨rfl, fun _ => hrecord⟩
  · rcases execDecode_cases h₂ with ⟨hnone, -⟩ | ⟨-, rfl⟩
    · exact absurd (hverdict.mpr hnone) hsome
    · exact ⟨rfl, (nomatch ·)⟩

/-- Settles O33, by the source's answer on a full buffer. -/
theorem decodeFollowsTheSourceSteps : Obligations.DecodeFollowsTheSourceSteps := by
  have haccepts : ∀ s : State, s.buflen.toNat = 64 → ∀ r, Source.decode s.frame = some r →
      DecodeAccepts s r := by
    intro s hfull r hr
    have hnone := (rejectCause_eq_none_iff_sourceDecode s).mpr ⟨hfull, by simp [hr]⟩
    rw [sourceDecode_frame hfull, if_pos hnone, recordOf_toList] at hr
    exact Option.some.inj hr ▸ decodeAccepts_of_rejectCause hnone
  refine ⟨decode_encode (i := .decode) trivial, classNIllegal (by simp), haccepts,
    fun s _ hfails => ?fails, fun _ => decodeRejects_of_buflen_ne, fun s hfull hframe => ?vector⟩
  case fails =>
    exact decodeRejects_of_rejectCause fun hnone =>
      ((rejectCause_eq_none_iff_sourceDecode s).mp hnone).2 hfails
  case vector =>
    refine haccepts s hfull recordD1 ?_
    rw [hframe]
    decide +kernel

/-- Settles O35: the source's answer is a function of the frame. -/
theorem decodeDependsOnTheFrameAlone : Obligations.DecodeDependsOnTheFrameAlone := by
  intro s₁ s₂ t₁ t₂ hframe hfull h₁ h₂
  refine decode_agrees h₁ h₂ ?_ (recordOf_of_frame hframe)
  rw [rejectCause_eq_none_iff_sourceDecode, rejectCause_eq_none_iff_sourceDecode, hframe, hfull]

end Sys2Proof.Machine
end

section
/-! PROOFS. What DECODE's checks and its record look at: command, length and payload bytes, and the
checksum over offsets 0..60 (rules R117 to R119, R124, R125, R128). -/

namespace Sys2Proof.Machine

open Sys2Proof.Claims

/-! ### The record reads the payload alone -/

/-- How many frame bytes a field takes (rule R95). -/
def FieldKind.bytes (kind : FieldKind) : Nat :=
  match kind with
  | .u8 => 1
  | .u64 => 8
  | .s16 => 2
  | .f32 => 4

/-- A field depends on its own bytes alone. -/
theorem fieldSlot_congr {s t : State} {kind : FieldKind} {off : Nat}
    (h : ∀ i, i < kind.bytes → t.fbufByte (off + i) = s.fbufByte (off + i)) :
    fieldSlot t kind off = fieldSlot s kind off := by
  cases kind with
  | u8 => exact congrArg zext64 (h 0 Nat.zero_lt_one)
  | u64 => exact congrArg zext64 (State.memRead_congr h)
  | s16 => exact congrArg sext64 (State.memRead_congr h)
  | f32 => exact congrArg zext64 (State.memRead_congr h)

/-- Every field lies in the 56 payload bytes (rule R121). -/
theorem recordTable_inside : ∀ row ∈ recordTable, row.poff + row.kind.bytes ≤ 56 := by decide

/-- The record depends on offsets 5..60 alone (rule R124). -/
theorem recordOf_congr {s t : State} (h : ∀ i, 5 ≤ i → i ≤ 60 → t.fbufByte i = s.fbufByte i) :
    recordOf t = recordOf s := by
  have hrows : recordTable.map (rowSlot t) = recordTable.map (rowSlot s) := by
    refine List.map_congr_left fun row hrow => fieldSlot_congr fun i hi => ?_
    have hinside := recordTable_inside row hrow
    exact h (5 + row.poff + i) (by omega) (by omega)
  simp only [recordOf, hrows]

/-- Settles O36: under a right checksum the checks look at command and length, the record at the payload. -/
theorem headDomainAndTailAreNotChecked : Obligations.HeadDomainAndTailAreNotChecked := by
  intro s₁ s₂ t₁ t₂ hbuflen hbytes hcrc h₁ h₂
  have hcrc₁ : frameCrc s₁ = s₁.fbufByte 61 := hcrc s₁ (by simp)
  have hcrc₂ : frameCrc s₂ = s₂.fbufByte 61 := hcrc s₂ (by simp)
  refine decode_agrees h₁ h₂ ?verdict (recordOf_congr fun i hlo hhi => hbytes i (by omega) hhi)
  rw [rejectCause_eq_none_iff, rejectCause_eq_none_iff, hbuflen, hbytes 3 (by decide) (by decide),
    hbytes 4 (by decide) (by decide)]
  simp only [hcrc₁, hcrc₂]

/-! ### The conditions of the taxonomy -/

/-- The checksum check, on the source's numbers (rule R119). -/
theorem sourceCrc_eq_iff (s : State) :
    Source.crc (s.fbufBytes 0 61) = (s.fbufByte 61).toNat ↔ frameCrc s = s.fbufByte 61 := by
  rw [← crc8_toNat, BitVec.toNat_inj]
  rfl

/-- The four checks in their order, each by the condition of the taxonomy (rules R126, R141). -/
theorem rejectCause_eq (s : State) : rejectCause s =
    if s.buflen.toNat ≠ 64 then some .wrongLength
    else if (s.fbufByte 3).toNat ≠ 1 then some .unsupportedCommand
    else if (s.fbufByte 4).toNat ≠ 56 then some .lengthMismatch
    else if Source.crc (s.fbufBytes 0 61) ≠ (s.fbufByte 61).toNat then some .checksumMismatch
    else none := by
  simp only [ne_eq, sourceCrc_eq_iff]
  rfl

/-- The cause is the number of a condition that holds, and none below it does (rule R126). -/
theorem rejectCause_is_first {s : State} {c : RejectCause} (h : rejectCause s = some c) :
    RejectCondition s c.number ∧ ∀ n, n < c.number → ¬ RejectCondition s n := by
  rw [rejectCause_eq] at h
  unfold RejectCondition
  split_ifs at h with hlen hcommand hlength hcrc <;> obtain rfl := Option.some.inj h
  · exact ⟨.inl ⟨rfl, hlen⟩, fun n (hn : n < 1) => by omega⟩
  · exact ⟨.inr (.inl ⟨rfl, hcommand⟩), fun n (hn : n < 2) => by omega⟩
  · exact ⟨.inr (.inr (.inl ⟨rfl, hlength⟩)), fun n (hn : n < 3) => by omega⟩
  · exact ⟨.inr (.inr (.inr ⟨rfl, hcrc⟩)), fun n (hn : n < 4) => by omega⟩

/-- A frame passes the four checks exactly when no condition holds. -/
theorem rejectCause_eq_none_iff_conditions (s : State) :
    rejectCause s = none ↔ ∀ n, ¬ RejectCondition s n := by
  constructor
  · intro hnone n
    obtain ⟨hlen, hcommand, hlength, hcrc⟩ := (rejectCause_eq_none_iff s).mp hnone
    simp [RejectCondition, hlen, hcommand, hlength, (sourceCrc_eq_iff s).mpr hcrc]
  · intro h
    cases hc : rejectCause s with
    | none => rfl
    | some c => exact absurd (rejectCause_is_first hc).1 (h c.number)

theorem decodeRejects_of_rejectCondition {s : State} {n : Nat} (h : RejectCondition s n) :
    DecodeRejects s :=
  decodeRejects_of_rejectCause fun hnone => (rejectCause_eq_none_iff_conditions s).mp hnone n h

/-- Settles O37: a condition is a check that fails, and a wrong command byte is condition 2. -/
theorem eachFailedCheckRejects : Obligations.EachFailedCheckRejects :=
  ⟨fun _ hne => decodeRejects_of_rejectCondition (n := 2)
      (.inr (.inl ⟨rfl, fun h => hne (BitVec.eq_of_toNat_eq h)⟩)),
    fun _ _ => decodeRejects_of_rejectCondition⟩

/-- Settles O38: the checks run in the order of the numbers, and DECODE does not look at the cause. -/
theorem rejectCauseIsTheFirstCondition : Obligations.RejectCauseIsTheFirstCondition := by
  refine ⟨fun s c h => ?_, rejectCause_eq_none_iff_conditions, fun _ => decodeAccepts_of_rejectCause⟩
  obtain ⟨hholds, hfirst⟩ := rejectCause_is_first h
  exact ⟨hholds, hfirst, decodeRejects_of_rejectCondition hholds⟩

/-! ### One changed byte -/

/-- The covered bytes of a state that differs in one of them. -/
theorem fbufBytes_eq_set {s s' : State} {a n : Nat}
    (hsame : ∀ i, i ≠ a → s'.fbufByte i = s.fbufByte i) :
    s'.fbufBytes 0 n = (s.fbufBytes 0 n).set a (s'.fbufByte a) := by
  refine List.ext_getElem (by simp) fun i hi hi' => ?_
  rw [List.getElem_set, State.fbufBytes_getElem, State.fbufBytes_getElem, Nat.zero_add]
  split
  · next heq => rw [heq]
  · next hne => exact hsame i (Ne.symm hne)

/-- One changed covered byte changes the frame's checksum (rule R88). -/
theorem frameCrc_ne_of_byte_ne {s s' : State} {a : Nat} (ha : a < 61)
    (hne : s'.fbufByte a ≠ s.fbufByte a) (hsame : ∀ i, i ≠ a → s'.fbufByte i = s.fbufByte i) :
    frameCrc s' ≠ frameCrc s := by
  rw [frameCrc, fbufBytes_eq_set hsame]
  exact crc8From_set_ne _ (by rwa [State.fbufBytes_length]) (by rwa [State.fbufBytes_getElem, Nat.zero_add])

/-- Settles O39: either the checksum changes or the byte it is compared with does, not both. -/
theorem oneByteChangeIsRejected : Obligations.OneByteChangeIsRejected := by
  intro s s' a r haccepts ha hbuflen hne hsame
  have hcrc := frameCrc_of_decodeAccepts haccepts
  suffices hbad : frameCrc s' ≠ s'.fbufByte 61 by
    refine decodeRejects_of_rejectCause fun hnone => hbad ?_
    obtain ⟨-, -, -, hgood⟩ := (rejectCause_eq_none_iff s').mp hnone
    exact hgood
  rcases Nat.lt_or_eq_of_le ha with hcovered | rfl
  · rw [hsame 61 (by omega), ← hcrc]
    exact frameCrc_ne_of_byte_ne hcovered hne hsame
  · have hkept : frameCrc s' = frameCrc s :=
      congrArg crc8 (State.fbufBytes_congr fun i (hi : i < 61) => hsame _ (by omega))
    rw [hkept, hcrc]
    exact hne.symm

end Sys2Proof.Machine
end

section
/-! PROOFS. The values the record's slots stand for, raw times scale (rule R123). -/

namespace Sys2Proof.Machine

open Sys2Proof.Claims

/-- A signed field of the frame is the source's (rule R10). -/
theorem fldS16_toInt_frame (s : State) {off : Nat} (h : off + 2 ≤ 64) :
    (fldS16 s off).toInt = Source.signed16At s.frame off := by
  rw [fldS16_toInt, ← memRead_toNat, ← unsignedAt_frame s h]
  rfl

/-- What a row says about its slot: kind, frame offset, and d where the scale is 1/d (rule R121). -/
def FieldRow.layout (row : FieldRow) : FieldKind × Nat × Nat :=
  (row.kind, Config.headerBytes + row.poff, row.scaleDen)

/-- The value of a field, on the source's numbers (rule R123). -/
def sourceValue (buf : List Byte) (layout : FieldKind × Nat × Nat) : FieldValue :=
  match layout with
  | (.u8, off, d) => .exact ((Source.unsignedAt buf off 1 : Rat) / d)
  | (.u64, off, d) => .exact ((Source.unsignedAt buf off 8 : Rat) / d)
  | (.s16, off, d) => .exact ((Source.signed16At buf off : Rat) / d)
  | (.f32, off, _) => .float (f32val (BitVec.ofNat 32 (Source.unsignedAt buf off 4)))

/-- The value of the slot DECODE writes for a row is the source's field times its scale. -/
theorem slotValue_rowSlot (s : State) {row : FieldRow} (hrow : row ∈ recordTable) :
    slotValue row (rowSlot s row) = sourceValue s.frame row.layout := by
  have hinside := recordTable_inside row hrow
  have hoff : 5 + row.poff + row.kind.bytes ≤ 64 := by omega
  obtain ⟨name, poff, kind, d⟩ := row
  cases kind with
  | u8 =>
    show FieldValue.exact (mkRat (fldU8 s (5 + poff)).toNat d) = .exact _
    rw [fldU8_toNat, ← memRead_one, ← unsignedAt_frame s (n := 1) hoff, Rat.mkRat_eq_div,
      Int.cast_natCast]
  | u64 =>
    show FieldValue.exact (mkRat (fldU64 s (5 + poff)).toNat d) = .exact _
    rw [fldU64_toNat, ← memRead_toNat, ← unsignedAt_frame s (n := 8) hoff, Rat.mkRat_eq_div,
      Int.cast_natCast]
  | s16 =>
    show FieldValue.exact (mkRat (fldS16 s (5 + poff)).toInt d) = .exact _
    rw [fldS16_toInt_frame s hoff, Rat.mkRat_eq_div]
  | f32 =>
    show FieldValue.float (f32val ((zext64 (f32Pattern s (5 + poff))).setWidth 32)) = .float _
    rw [← f32Pattern_frame s hoff, zext64, BitVec.setWidth_setWidth_of_le _ (by decide), BitVec.setWidth_eq]

/-- The value of record field k after an accepting DECODE, by the field's layout. -/
theorem recordValue_acceptFrame (s : State) {k : Nat} {layout : FieldKind × Nat × Nat}
    (h : recordTable[k]?.map FieldRow.layout = some layout) :
    recordValue (acceptFrame s) k = some (sourceValue s.frame layout) := by
  obtain ⟨row, hrow, rfl⟩ := Option.map_eq_some_iff.mp h
  have hslot : (acceptFrame s).record.toList[k]? = some (rowSlot s row) := by
    show (recordTable.map (rowSlot s))[k]? = _
    rw [List.getElem?_map, hrow, Option.map_some]
  rw [recordValue, hrow, hslot, ← slotValue_rowSlot s (List.mem_of_getElem? hrow)]

/-- Scale 1 leaves the raw value. -/
theorem exact_div_one (n : Nat) : FieldValue.exact ((n : Rat) / (1 : Nat)) = .exact n := by
  rw [Nat.cast_one, div_one]

/-- A consumer rounds the exact value (rule R7). -/
theorem consumerValue_of_exact {Fmt : Type} (scaleRounding : Rat → Fmt) {s : State} {k : Nat} {q : Rat}
    (h : recordValue s k = some (.exact q)) : consumerValue scaleRounding s k = some (scaleRounding q) := by
  rw [consumerValue, h]

/-- The float fields' layout (rule R121). -/
theorem layout_of_float : ∀ p ∈ [(2, 14), (3, 18), (4, 22), (5, 26), (6, 30), (7, 34), (8, 38), (9, 42)],
    recordTable[p.1]?.map FieldRow.layout = some (.f32, p.2, 1) := by decide

/-- The biases' layout (rule R121). -/
theorem layout_of_bias : ∀ p ∈ [(12, 49), (13, 51), (14, 53), (15, 55), (16, 57), (17, 59)],
    recordTable[p.1]?.map FieldRow.layout = some (.s16, p.2, 10000) := by decide

/-- Settles O40, field by field from the layout. -/
theorem recordValuesAreRawTimesScale : Obligations.RecordValuesAreRawTimesScale := by
  intro s t r haccepts ht
  obtain rfl : acceptFrame s = t :=
    Host.Outcome.next.inj ((exec_decode_accept (rejectCause_of_decodeAccepts haccepts)).symm.trans ht)
  have htemperature := recordValue_acceptFrame s (k := 10) (layout := (.s16, 46, 10)) (by decide)
  have hbias : ∀ k off, (k, off) ∈ [(12, 49), (13, 51), (14, 53), (15, 55), (16, 57), (17, 59)] →
      recordValue (acceptFrame s) k = some (.exact ((Source.signed16At s.frame off : Rat) / 10000)) :=
    fun k off h => recordValue_acceptFrame s (layout_of_bias _ h)
  refine ⟨recordOf_toList s, ?count, ?timestamp,
    fun k off h => recordValue_acceptFrame s (layout_of_float _ h), htemperature, ?imuStatus, hbias,
    fun _ scaleRounding => ⟨consumerValue_of_exact scaleRounding htemperature,
      fun k off h => consumerValue_of_exact scaleRounding (hbias k off h)⟩⟩
  case count =>
    rw [recordValue_acceptFrame s (layout := (.u8, 5, 1)) (by decide), sourceValue, exact_div_one]
  case timestamp =>
    rw [recordValue_acceptFrame s (layout := (.u64, 6, 1)) (by decide), sourceValue, exact_div_one]
  case imuStatus =>
    rw [recordValue_acceptFrame s (layout := (.u8, 48, 1)) (by decide), sourceValue, exact_div_one]

end Sys2Proof.Machine
end

section
/-! PROOFS. Command errors: every step completes, an error is precise and sticky, and it does not stop the
block (rules R136 to R139, R150). -/

namespace Sys2Proof.Machine

open Sys2Proof.Claims

/-! ### Completion -/

/-- Every command word answers a next state, be it legal or not. -/
theorem runCommand_next (w : Word) (s : State) : ∃ t, runCommand w s = .next t := by
  unfold runCommand
  cases decode w with
  | ok i => exact exec_next i s
  | error e => exact ⟨_, rfl⟩

/-- Settles O9, item by item. -/
theorem everyStepCompletes : Obligations.EveryStepCompletes := by
  intro s
  cases hp : s.pending with
  | nil => exact .inl ⟨s, step_idle hp⟩
  | cons item rest =>
    rw [step_item hp]
    cases item with
    | command w => exact .inl (runCommand_next w _)
    | read addr => exact .inl ⟨_, rfl⟩
    | reset => exact .inl ⟨_, rfl⟩
    | secondHost => exact .inr ⟨rest, rfl, rfl⟩

/-! ### What raises an error -/

/-- A nonzero RSV makes a word illegal, whatever its other fields hold (rule R57). -/
theorem isIllegal_of_rsvField_ne_zero {w : Word} (h : rsvField w ≠ 0) : IsIllegal w :=
  (illegalWordsAreExactlyTheThreeKinds.1 w).mpr (.inr (.inl h))

/-- Settles O43: each word by its cause, a nonzero RSV being a cause of ILLEGAL. -/
theorem commandErrorsArePrecise : Obligations.CommandErrorsArePrecise := by
  intro s w rest hp
  have hillegal := illegalWordsAreExactlyTheThreeKinds.2 s w rest hp
  refine ⟨hillegal, fun hrsv => hillegal (isIllegal_of_rsvField_ne_zero hrsv), fun i hd hr => ?_⟩
  rw [step_command hp hd]
  exact raisesRange_of_not_rangeLegal hr _

/-- A legal command other than CLEAR leaves ERR and ERRCODE. -/
theorem errs_same_effect {i : Instr} (h : i ≠ .clear) (s : State) : Col.errs.Same s (effect i s) :=
  (sameExcept_effect i s).1 .errs fun hw => h (clear_of_writes_errs hw)

/-- Only the six commands that read FBUF at their offset have a range to pass (rule R59). -/
theorem readsAtOffset_of_not_rangeLegal {i : Instr} (h : ¬ RangeLegal i) :
    (∃ off cnt, i = .crcrange off cnt) ∨ (∃ off, i = .crcchk off ∨ i = .ldu8 off ∨ i = .lds16 off ∨
      i = .ldu64 off ∨ i = .ldf32 off) := by
  cases i with
  | nop | clear | push | crcinit | crcbyte | decode => exact absurd trivial h
  | crcrange off cnt => exact .inl ⟨off, cnt, rfl⟩
  | crcchk off | ldu8 off | lds16 off | ldu64 off | ldf32 off => exact .inr ⟨off, by simp⟩

/-- Settles O44: out of range is RANGE, in range is the command's effect. -/
theorem rangeErrorsAreExactlyTheSix : Obligations.RangeErrorsAreExactlyTheSix := by
  refine ⟨fun _ s hr => raisesRange_of_not_rangeLegal hr s, fun i s hr => ?_,
    fun _ => readsAtOffset_of_not_rangeLegal⟩
  refine ⟨effect i s, exec_of_rangeLegal hr s, fun hi => errs_same_effect hi s, ?_⟩
  rintro rfl
  rfl

/-! ### An error is sticky -/

/-- A further command error leaves the first one's code (rule R137). -/
theorem errs_same_cmdError {s : State} (herr : s.status.err = true) (c : CmdError) :
    Col.errs.Same s (s.cmdError c) :=
  ⟨by simp [herr], by simp [herr]⟩

/-- While ERR is 1, a command other than CLEAR leaves ERR and ERRCODE, be it legal or not. -/
theorem exec_keeps_errs {i : Instr} {s t : State} (h : exec i s = .next t) (hi : i ≠ .clear)
    (herr : s.status.err = true) : Col.errs.Same s t := by
  rcases exec_cases h with ⟨-, rfl⟩ | ⟨-, rfl⟩
  · exact errs_same_effect hi s
  · exact errs_same_cmdError herr .range

/-- CLEAR has one word. -/
theorem eq_of_decode_eq_clear {w : Word} (h : decode w = .ok .clear) : w = 0x00000001#32 :=
  (decode_eq_ok_iff.mp h).2.symm

/-- While ERR is 1, a step leaves ERR and ERRCODE unless it takes a CLEAR or a reset. -/
theorem step_keeps_errs {s t : State} {item : HostItem} {rest : List HostItem}
    (hp : s.pending = item :: rest) (h : step s = .next t) (herr : s.status.err = true)
    (hclear : item ≠ .command 0x00000001#32) (hreset : item ≠ .reset) : Col.errs.Same s t := by
  have haccept := same_accept .errs s
  rcases step_cases h with ⟨-, rfl⟩ | ⟨w, i, rest', hp', hd, he⟩ | ⟨w, e, rest', -, -, rfl⟩ |
    ⟨addr, rest', -, rfl⟩ | ⟨rest', hp', -⟩
  · exact Col.Same.refl .errs t
  · obtain ⟨rfl, rfl⟩ := List.cons.inj (hp.symm.trans hp')
    have hi : i ≠ .clear := by
      rintro rfl
      exact hclear (congrArg _ (eq_of_decode_eq_clear hd))
    exact (haccept rest).trans (exec_keeps_errs he hi herr)
  · exact (haccept rest').trans (errs_same_cmdError herr .illegal)
  · exact (sameBlock_returnWord s _ rest').1 .errs
  · exact absurd (List.cons.inj (hp.symm.trans hp')).1 hreset

/-! ### An error does not stop the block -/

theorem Col.Same.symm {c : Col} {s t : State} (h : c.Same s t) : c.Same t s := by
  cases c with
  | fbuf => exact fun a => (h a).symm
  | errs => exact ⟨h.1.symm, h.2.symm⟩
  | _ => exact Eq.symm h

theorem SameHostSide.symm {s t : State} (h : SameHostSide s t) : SameHostSide t s := by
  obtain ⟨hpending, hposition, hobserved⟩ := h
  exact ⟨hpending.symm, hposition.symm, hobserved.symm⟩

theorem SameHostSide.trans {s t u : State} (hst : SameHostSide s t) (htu : SameHostSide t u) :
    SameHostSide s u := by
  obtain ⟨hpending, hposition, hobserved⟩ := hst
  obtain ⟨hpending', hposition', hobserved'⟩ := htu
  exact ⟨hpending'.trans hpending, hposition'.trans hposition, hobserved'.trans hobserved⟩

theorem SameExcept.symm {cols : List Col} {s t : State} (h : SameExcept cols s t) :
    SameExcept cols t s :=
  ⟨fun c hc => (h.1 c hc).symm, h.2.symm⟩

/-- From two states that agree on a column, the same result there or none is the same column after. -/
theorem same_of_sameOrKept {c : Col} {s₁ s₂ t₁ t₂ : State} (h : SameOrKept c s₁ s₂ t₁ t₂)
    (hs : c.Same s₁ s₂) : c.Same t₁ t₂ := by
  cases c with
  | fbuf =>
    intro a
    rcases h a with h | ⟨h₁, h₂⟩
    · exact h
    · exact h₂.trans ((hs a).trans h₁.symm)
  | _ =>
    rcases h with h | ⟨h₁, h₂⟩
    · exact h
    · exact (h₁.symm.trans hs).trans h₂

/-- No command reads ERR or ERRCODE (rule R31). -/
theorem errs_not_mem_readCols (i : Instr) : .errs ∉ readCols i := by
  cases i <;> simp [readCols]

/-- A command takes two states that agree on all but ERR and ERRCODE to two such states. -/
theorem exec_sameExcept_errs {i : Instr} {s₁ s₂ t₁ t₂ : State} (hs : SameExcept [.errs] s₁ s₂)
    (h₁ : exec i s₁ = .next t₁) (h₂ : exec i s₂ = .next t₂) : SameExcept [.errs] t₁ t₂ := by
  obtain ⟨hframe, hdepends⟩ := readWriteMatrixHolds
  by_cases hr : RangeLegal i
  · have hread : ∀ c ∈ readCols i, c.Same s₁ s₂ := fun c hc =>
      hs.1 c fun he => errs_not_mem_readCols i (List.mem_singleton.mp he ▸ hc)
    have hhost : SameHostSide t₁ t₂ :=
      (exec_keeps_hostSide h₁).symm.trans (hs.2.trans (exec_keeps_hostSide h₂))
    exact ⟨fun c hc => same_of_sameOrKept (hdepends i s₁ s₂ t₁ t₂ hr h₁ h₂ hread c) (hs.1 c hc), hhost⟩
  · have herror₁ : SameExcept [.errs] s₁ t₁ := (hframe i s₁ t₁ h₁).2 hr
    have herror₂ : SameExcept [.errs] s₂ t₂ := (hframe i s₂ t₂ h₂).2 hr
    exact ((herror₁.symm.trans hs).trans herror₂).mono (by simp)

theorem sameExcept_withErrs (s : State) (e : Bool) (c : BitVec 2) :
    SameExcept [.errs] s (withErrs s e c) := by
  simp [sameExcept_iff, SameHostSide, withErrs]

/-- Settles O45: what a step leaves of an error, and what a command does whatever the error bits hold. -/
theorem errorsAreStickyAndDoNotStopTheBlock : Obligations.ErrorsAreStickyAndDoNotStopTheBlock := by
  constructor
  · intro s t item rest hp h herr
    by_cases hclear : item = .command 0x00000001#32
    · exact .inr (.inl hclear)
    by_cases hreset : item = .reset
    · exact .inr (.inr hreset)
    obtain ⟨herr', hcode⟩ := step_keeps_errs hp h herr hclear hreset
    exact .inl ⟨herr'.trans herr, hcode⟩
  · intro i s t e c h
    obtain ⟨u, hu⟩ := exec_next i (withErrs s e c)
    exact ⟨u, hu, exec_sameExcept_errs (sameExcept_withErrs s e c) h hu⟩

end Sys2Proof.Machine
end

section
/-! PROOFS. The binary32 format: the class and the value of every pattern (rules R101, R104). -/

namespace Sys2Proof.Machine

open Sys2Proof.Claims

/-! ### The class -/

/-- Settles O41: the class's sign and number, by exponent and fraction. -/
theorem fclassFollowsTheTable : Obligations.FclassFollowsTheTable :=
  hasClass_fclassOf

/-! ### The value of a finite pattern as a rational -/

/-- The model's two cases, a whole number or a fraction, are one power of two. -/
theorem dyadic_eq (m : Nat) (e : Int) : dyadic m e = m * (2 : Rat) ^ e := by
  rw [dyadic]
  split_ifs with he
  case pos =>
    obtain ⟨n, rfl⟩ := Int.eq_ofNat_of_zero_le he
    simp [Rat.mkRat_eq_div]
  case neg =>
    obtain ⟨n, rfl⟩ := Int.exists_eq_neg_ofNat (Int.le_of_not_le he)
    simp [Rat.mkRat_eq_div, div_eq_mul_inv]

theorem F32Value.rat?_finite (neg : Bool) (m : Nat) (e : Int) :
    (F32Value.finite neg m e).rat? = some ((-1) ^ neg.toNat * m * (2 : Rat) ^ e) := by
  cases neg <;> simp [F32Value.rat?, dyadic_eq]

/-! ### The rows of rule R101 -/

section
variable {w : BitVec 32}

theorem f32val_zero (he : exponentOf w.toNat = 0) (hf : fractionOf w.toNat = 0) :
    f32val w = .zero (f32Sign w) := by
  rw [f32val, f32Exponent_eq, f32Fraction_eq, if_pos he, if_pos hf]

theorem f32val_subnormal (he : exponentOf w.toNat = 0) (hf : fractionOf w.toNat ≠ 0) :
    f32val w = .finite (f32Sign w) (fractionOf w.toNat) (-149) := by
  rw [f32val, f32Exponent_eq, f32Fraction_eq, if_pos he, if_neg hf]

theorem f32val_normal (hlow : exponentOf w.toNat ≠ 0) (hhigh : exponentOf w.toNat ≠ 255) :
    f32val w = .finite (f32Sign w) (2 ^ 23 + fractionOf w.toNat) (exponentOf w.toNat - 150) := by
  rw [f32val, f32Exponent_eq, f32Fraction_eq, if_neg hlow, if_neg hhigh]

theorem f32val_ones (he : exponentOf w.toNat = 255) :
    f32val w = if fractionOf w.toNat = 0 then .infinity (f32Sign w) else .nan := by
  rw [f32val, f32Exponent_eq, f32Fraction_eq, if_neg (by omega), if_pos he]

end

/-- Settles O42: each row's value from the model, the two finite ones as powers of two. -/
theorem binaryValueFollowsTheFormula : Obligations.BinaryValueFollowsTheFormula := by
  intro w
  refine ⟨?zero, ?subnormal, ?normal, ?infinity, ?nan⟩
  case zero =>
    rintro ⟨he, hf⟩
    rw [f32val_zero he hf]
    exact ⟨rfl, rfl⟩
  case subnormal =>
    rintro ⟨he, hf⟩
    rw [f32val_subnormal he hf, F32Value.rat?_finite, f32Sign_toNat]
  case normal =>
    rintro ⟨hlow, hhigh⟩
    rw [f32val_normal (by omega) (by omega), F32Value.rat?_finite, f32Sign_toNat]
    push_cast
    rfl
  case infinity =>
    rintro ⟨he, hf⟩
    exact (f32val_ones he).trans (if_pos hf)
  case nan =>
    rintro ⟨he, hf⟩
    exact (f32val_ones he).trans (if_neg hf)

end Sys2Proof.Machine
end
